-- ==== Sys2Proof/Word.lean ====
section
/-! DEFINITION. Bytes, words and the fixed-size arrays of them (00_scope.md R7, parameters R4). -/

namespace Sys2Proof

/-- A byte is 8 bits (R7). -/
abbrev Byte := BitVec 8

/-- A word is 32 bits (R7, `WORD_BITS`). -/
abbrev Word := BitVec 32

/-- A chaining value: 8 words (R4 `CV_WORDS`, R11). -/
abbrev Cv := Vector Word 8

/-- A message block as words: 16 words (R4 `BLOCK_WORDS`). -/
abbrev MsgBlock := Vector Word 16

/-- The core's working vector `v[0..15]` (R101); it exists inside one compression only (R31). -/
abbrev WorkVec := Vector Word 16

/-- The pending-block buffer's 64 bytes (R4 `BLOCK_BYTES`, R22). -/
abbrev Buffer := Vector Byte 64

/-- The digest's 32 bytes (R4 `DIGEST_BYTES`, R27). -/
abbrev Digest := Vector Byte 32

end Sys2Proof
end

