-- ==== Sys2Proof/Syntax.lean ====
section
/-! DEFINITION. The instructions: one constructor per row of spec/opcode_table.json, that is the four host commands
(30_encoding.md R73) and the eight core request forms (R81); core requests (R79); the pseudo-commands (R85). -/

namespace Sys2Proof

/-- The operands of a core request other than the flag set `d` (R79). -/
structure CoreArgs where
  /-- input chaining value `h` -/
  h : Cv
  /-- message block `m` -/
  m : MsgBlock
  /-- counter `t` -/
  t : BitVec 64
  /-- count of real bytes `b`, legal from 0 to 64 -/
  b : BitVec 7
deriving DecidableEq, Repr

/-- A request to the compression core: five fields (R79). -/
structure Request where
  args : CoreArgs
  /-- the domain flag set `d` (R80) -/
  d : BitVec 4
deriving DecidableEq, Repr

/-- The instruction set. In a core request form the constructor fixes `d`. -/
inductive Instr where
  /-- `INIT` (R191) -/
  | init
  /-- `UPDATE <bytes>` (R192) -/
  | update (data : List Byte)
  /-- `FINAL` (R193) -/
  | final
  /-- `RDDIG` (R194) -/
  | rddig
  /-- `CHUNK_MID`, `d = 0x0` (R110) -/
  | chunkMid (a : CoreArgs)
  /-- `CHUNK_FIRST`, `d = 0x1` (R111) -/
  | chunkFirst (a : CoreArgs)
  /-- `CHUNK_LAST`, `d = 0x2` (R112) -/
  | chunkLast (a : CoreArgs)
  /-- `CHUNK_ONLY`, `d = 0x3` (R113) -/
  | chunkOnly (a : CoreArgs)
  /-- `CHUNK_LAST_ROOT`, `d = 0xA` (R114) -/
  | chunkLastRoot (a : CoreArgs)
  /-- `CHUNK_ONLY_ROOT`, `d = 0xB` (R115) -/
  | chunkOnlyRoot (a : CoreArgs)
  /-- `PARENT`, `d = 0x4` (R116) -/
  | parent (a : CoreArgs)
  /-- `PARENT_ROOT`, `d = 0xC` (R117) -/
  | parentRoot (a : CoreArgs)
deriving DecidableEq, Repr

/-- The pseudo-commands (R85). -/
inductive Pseudo where
  /-- `HASH <bytes>` -/
  | hash (data : List Byte)
  /-- `UPDATE.B <byte>` -/
  | updateB (x : Byte)
  /-- `UPDATE.S k, <bytes>` -/
  | updateS (k : Nat) (data : List Byte)
deriving DecidableEq, Repr

end Sys2Proof
end

