-- ==== Sys2Proof/WellFormed.lean ====
section
/-! DEFINITION. Well-formed instructions: an `UPDATE` payload fits its 64-bit `LEN` (30_encoding.md R72), a core request's
`b` is at most 64 (40_compression_core.md R107), a pseudo-command expands to well-formed commands (R85, log 20). -/

namespace Sys2Proof

/-- R72: `LEN` may be any value from 0 to `2^64 - 1`. -/
def payloadFits (data : List Byte) : Bool := data.length < 2 ^ 64

/-- R107: the caller guarantees `b ≤ 64`. -/
def CoreArgs.lengthLegal (a : CoreArgs) : Bool := a.b.toNat ≤ 64

/-- The well-formed instructions. -/
def Instr.wf : Instr → Bool
  | .init => true
  | .update data => payloadFits data
  | .final => true
  | .rddig => true
  | .chunkMid a => a.lengthLegal
  | .chunkFirst a => a.lengthLegal
  | .chunkLast a => a.lengthLegal
  | .chunkOnly a => a.lengthLegal
  | .chunkLastRoot a => a.lengthLegal
  | .chunkOnlyRoot a => a.lengthLegal
  | .parent a => a.lengthLegal
  | .parentRoot a => a.lengthLegal

/-- The well-formed pseudo-commands (R85): each `UPDATE` of the expansion fits its `LEN` (R72). `HASH` sends its bytes in one
`UPDATE`; the longest piece of `UPDATE.S` has `k` bytes, or all of them where they are fewer, and the whole may be of any
length. A piece size of 0, whose expansion never ends, is ill-formed by the model's own choice (log 20). -/
def Pseudo.wf : Pseudo → Bool
  | .hash data => payloadFits data
  | .updateB _ => true
  | .updateS k data => k ≠ 0 && min k data.length < 2 ^ 64

end Sys2Proof
end

