-- ==== Sys2Proof/Decode.lean ====
section
/-! DEFINITION. The decoder of the command stream (30_encoding.md R70 to R78), the decoder of core requests (R79 to R81), and
the encoder written from the same tables. -/

namespace Sys2Proof

/-! ## The command stream -/

/-- The value of a little-endian byte sequence, first byte least significant (20_memory.md R56, R7). -/
def leNat : List Byte → Nat
  | [] => 0
  | x :: xs => x.toNat + 2 ^ 8 * leNat xs

/-- `n` bytes of `v`, least significant first; the inverse of `leNat` on `n` bytes. -/
def leBytes : Nat → Nat → List Byte
  | 0, _ => []
  | n + 1, v => BitVec.ofNat 8 v :: leBytes n (v / 2 ^ 8)

/-- Field `rsvd`, bits 7:2 of the first byte (R71). -/
def rsvdField (x : Byte) : BitVec 6 := x.extractLsb' 2 6

/-- Field `op`, bits 1:0 of the first byte (R71). -/
def opField (x : Byte) : BitVec 2 := x.extractLsb' 0 2

/-- What stands at the front of a command stream, or on a core's request port. -/
inductive Decoded where
  /-- an instruction, and the bytes that follow it -/
  | instr (i : Instr) (rest : List Byte)
  /-- a reserved first byte, and the bytes that follow it (R74) -/
  | reserved (x : Byte) (rest : List Byte)
  /-- no whole command: the stream is empty, or ends inside an `UPDATE` (R75) -/
  | incomplete
  /-- a core request whose `d` is not one of the eight forms (R107) -/
  | illegalRequest (r : Request)
deriving DecidableEq, Repr

/-- Format `CU` after its first byte: 8 bytes of `LEN`, then `LEN` bytes of payload (R72). -/
def decodeUpdate (s : List Byte) : Decoded :=
  if s.length < 8 then .incomplete
  else
    let len := leNat (s.take 8)
    let body := s.drop 8
    if body.length < len then .incomplete
    else .instr (.update (body.take len)) (body.drop len)

/-- The decoder of R70, total on any bytes. -/
def decodeStream : List Byte → Decoded
  | [] => .incomplete
  | x :: s =>
    if rsvdField x ≠ 0 then .reserved x s
    else
      match (opField x).toNat with
      | 0 => .instr .init s
      | 1 => decodeUpdate s
      | 2 => .instr .final s
      | _ => .instr .rddig s

/-! ## Core requests -/

/-- The eight legal request forms, selected by `d` (R81). -/
def decodeRequest (r : Request) : Option Instr :=
  match r.d.toNat with
  | 0x0 => some (.chunkMid r.args)
  | 0x1 => some (.chunkFirst r.args)
  | 0x2 => some (.chunkLast r.args)
  | 0x3 => some (.chunkOnly r.args)
  | 0x4 => some (.parent r.args)
  | 0xA => some (.chunkLastRoot r.args)
  | 0xB => some (.chunkOnlyRoot r.args)
  | 0xC => some (.parentRoot r.args)
  | _ => none

/-! ## The encoder -/

/-- Where an instruction's encoding goes: bytes of the command stream, or a request on a core's port (R83). -/
inductive Encoding where
  | stream (bytes : List Byte)
  | port (r : Request)
deriving DecidableEq, Repr

/-- Decoding in either space. -/
def decode : Encoding → Decoded
  | .stream s => decodeStream s
  | .port r =>
    match decodeRequest r with
    | some i => .instr i []
    | none => .illegalRequest r

/-- The bytes of an `UPDATE` (R72). -/
def encodeUpdate (data : List Byte) : List Byte := 0x01 :: leBytes 8 data.length ++ data

/-- The encoding of an instruction (R71 to R73, R79, R81). -/
def encode : Instr → Encoding
  | .init => .stream [0x00]
  | .update data => .stream (encodeUpdate data)
  | .final => .stream [0x02]
  | .rddig => .stream [0x03]
  | .chunkMid a => .port ⟨a, 0x0⟩
  | .chunkFirst a => .port ⟨a, 0x1⟩
  | .chunkLast a => .port ⟨a, 0x2⟩
  | .chunkOnly a => .port ⟨a, 0x3⟩
  | .chunkLastRoot a => .port ⟨a, 0xA⟩
  | .chunkOnlyRoot a => .port ⟨a, 0xB⟩
  | .parent a => .port ⟨a, 0x4⟩
  | .parentRoot a => .port ⟨a, 0xC⟩

/-! ## Pseudo-commands and byte strings of the syntax (R84, R85) -/

/-- `zeros(n)` (R84). -/
def zeroBytes (n : Nat) : List Byte := List.replicate n 0

/-- `pat(n)`: byte `i` is `i mod 251` (R84). -/
def patBytes (n : Nat) : List Byte := (List.range n).map fun i => BitVec.ofNat 8 (i % 251)

/-- The pieces of `UPDATE.S`; `fuel` bounds their number, and one per byte is enough. -/
def splitPieces (k : Nat) : Nat → List Byte → List Instr
  | 0, _ => []
  | _ + 1, [] => []
  | fuel + 1, x :: xs => .update ((x :: xs).take k) :: splitPieces k fuel ((x :: xs).drop k)

/-- The expansion of a pseudo-command into real commands (R85). -/
def Pseudo.expand : Pseudo → List Instr
  | .hash data => [.init, .update data, .final]
  | .updateB x => [.update [x]]
  | .updateS k data => splitPieces k data.length data

/-! ## Words of the opcode table

The table has two spaces: rows selected by the first byte of the command stream, and rows selected by the 4-bit field `d` of
a core request. A table word alone does not say which (log 11): one given in fewer than 8 bits is a value of `d`; one given in
whole bytes is a command where the command stream has one, and otherwise the row of the request form with that `d`. -/

/-- A core request with flag set `d` and every operand field 0. -/
def tableRequest (d : Nat) : Request := ⟨⟨Vector.replicate 8 0, Vector.replicate 16 0, 0, 0⟩, BitVec.ofNat 4 d⟩

/-- The bytes of a table word: its `nbits` bits, then zero bytes to the end of the command that they begin. -/
def tableBytes (nbits w : Nat) : List Byte :=
  let bytes := leBytes ((nbits + 7) / 8) w
  match bytes with
  | [] => []
  | x :: s =>
    if x = 0x01 then
      let header := s ++ List.replicate (8 - s.length) 0
      x :: header ++ List.replicate (leNat (header.take 8) - (header.length - 8)) 0
    else bytes

/-- The space a table word belongs to, and its encoding there. -/
def tableEncoding (nbits w : Nat) : Encoding :=
  if nbits < 8 then .port (tableRequest w)
  else
    match decodeStream (tableBytes nbits w) with
    | .reserved _ _ =>
      if nbits = 8 ∧ w < 16 ∧ (decodeRequest (tableRequest w)).isSome then .port (tableRequest w)
      else .stream (tableBytes nbits w)
    | _ => .stream (tableBytes nbits w)

/-- The instruction the decoder reads from a table word. -/
def decodeTableWord (nbits w : Nat) : Option Instr :=
  match decode (tableEncoding nbits w) with
  | .instr i _ => some i
  | _ => none

end Sys2Proof
end

