-- ==== Sys2Proof/Machine/Constants.lean ====
section
/-! DEFINITION. The hardwired constants (10_state.md R36 to R38). The source names them without printing them; the values are
the spec's, supplied from general knowledge (93_implementation_defined.md GK1, GK3, GK6; log 16). -/

namespace Sys2Proof.Machine

/-- The initial constant `IV` (R36). -/
def iv : Cv :=
  #v[0x6A09E667, 0xBB67AE85, 0x3C6EF372, 0xA54FF53A, 0x510E527F, 0x9B05688C, 0x1F83D9AB, 0x5BE0CD19]

/-- The message schedule: `sigma[r][k]` is the message word used in position `k` of round `r` (R37). -/
def sigma : Vector (Vector (Fin 16) 16) 7 := #v[
  #v[0, 1, 2, 3, 4, 5, 6, 7, 8, 9, 10, 11, 12, 13, 14, 15],
  #v[2, 6, 3, 10, 7, 0, 4, 13, 1, 11, 12, 5, 9, 14, 15, 8],
  #v[3, 4, 10, 12, 13, 2, 7, 14, 6, 5, 9, 0, 11, 15, 8, 1],
  #v[10, 7, 12, 9, 14, 3, 13, 15, 4, 0, 11, 2, 5, 8, 1, 6],
  #v[12, 13, 9, 11, 15, 10, 14, 8, 7, 2, 5, 3, 0, 1, 6, 4],
  #v[9, 14, 11, 5, 8, 12, 15, 1, 13, 3, 0, 10, 2, 6, 4, 7],
  #v[11, 15, 5, 0, 1, 9, 8, 6, 14, 10, 2, 12, 3, 4, 7, 13]]

/-- Flag `CHUNK_START`, bit 0 of `d` (R38). -/
def chunkStart : BitVec 4 := 0x1

/-- Flag `CHUNK_END`, bit 1 of `d` (R38). -/
def chunkEnd : BitVec 4 := 0x2

/-- Flag `PARENT`, bit 2 of `d` (R38). -/
def parentFlag : BitVec 4 := 0x4

/-- Flag `ROOT`, bit 3 of `d` (R38). -/
def rootFlag : BitVec 4 := 0x8

end Sys2Proof.Machine
end

