-- ==== Sys2Proof/Machine/Operands.lean ====
section
/-! DEFINITION. Word arithmetic (00_scope.md R8) and the word (de)serialiser (41_word_serializer.md R120, R121). -/

namespace Sys2Proof.Machine

/-- `add32` of two words (R8): the sum modulo `2^32`. -/
def add32 (a b : Word) : Word := a + b

/-- `add32` of three words (R8). -/
def add32x3 (a b c : Word) : Word := a + b + c

/-- `rotr32(x, n)` for `0 < n < 32` (R8): rotation to the right. -/
def rotr32 (x : Word) (n : Nat) : Word := x >>> n ||| x <<< (32 - n)

/-- `inc64(c) = (c + 1) mod 2^64` (R8). -/
def inc64 (c : BitVec 64) : BitVec 64 := c + 1

/-- `lo32(t) = t[31:0]` (R8). -/
def lo32 (t : BitVec 64) : Word := t.extractLsb' 0 32

/-- `hi32(t) = t[63:32]` (R8). -/
def hi32 (t : BitVec 64) : Word := t.extractLsb' 32 32

/-- `popcount` by halving, for numbers below `2 ^ fuel` (R8). -/
def popcountNat : Nat → Nat → Nat
  | 0, _ => 0
  | fuel + 1, n => n % 2 + popcountNat fuel (n / 2)

/-- `popcount(c)`: the number of 1 bits (R8). -/
def popcount (c : BitVec 64) : Nat := popcountNat 64 c.toNat

/-- `ctz` by halving, for non-zero numbers below `2 ^ fuel` (R8). -/
def ctzNat : Nat → Nat → Nat
  | 0, _ => 0
  | fuel + 1, n => if n % 2 = 1 then 0 else 1 + ctzNat fuel (n / 2)

/-- `ctz(c)`: the number of trailing zero bits of a non-zero `c` (R8). -/
def ctz (c : BitVec 64) : Nat := ctzNat 64 c.toNat

/-- The word of four bytes, `x0` least significant (20_memory.md R51). -/
def leWord (x0 x1 x2 x3 : Byte) : Word := x3 ++ x2 ++ x1 ++ x0

/-- Byte `j` of a word, `w[8j+7 : 8j]` (20_memory.md R52). -/
def wordByte (w : Word) (j : Nat) : Byte := w.extractLsb' (8 * j) 8

/-- `LE_LOAD16(B)` (R120). -/
@[irreducible] def leLoad16 (B : Buffer) : MsgBlock := Vector.ofFn fun i =>
  leWord B[4 * i.val] B[4 * i.val + 1] B[4 * i.val + 2] B[4 * i.val + 3]

/-- `LE_STORE8(w)` (R121). -/
@[irreducible] def leStore8 (w : Cv) : Digest := Vector.ofFn fun i => wordByte w[i.val / 4] (i.val % 4)

end Sys2Proof.Machine
end

