-- ==== Sys2Proof/Machine/Compression.lean ====
section
/-! DEFINITION. The module `blake3_compression_core` (40_compression_core.md R100 to R106): a pure function. The order inside
the mixing step, the quadruples and the vector layout are the spec's, from general knowledge (GK2, GK4, GK5, GK8; log 16). -/

namespace Sys2Proof.Machine

/-- `INIT_VECTOR(h, t, b, d)` (R101). -/
def initVector (h : Cv) (t : BitVec 64) (b : BitVec 7) (d : BitVec 4) : WorkVec :=
  #v[h[0], h[1], h[2], h[3], h[4], h[5], h[6], h[7],
     iv[0], iv[1], iv[2], iv[3], lo32 t, hi32 t, b.setWidth 32, d.setWidth 32]

/-- The mixing step `G(v, a, b, c, d, x, y)` (R102): eight assignments in order, each reading what the earlier ones wrote. -/
def mix (v : WorkVec) (a b c d : Fin 16) (x y : Word) : WorkVec :=
  let v := v.set a (add32x3 v[a] v[b] x)
  let v := v.set d (rotr32 (v[d] ^^^ v[a]) 16)
  let v := v.set c (add32 v[c] v[d])
  let v := v.set b (rotr32 (v[b] ^^^ v[c]) 12)
  let v := v.set a (add32x3 v[a] v[b] y)
  let v := v.set d (rotr32 (v[d] ^^^ v[a]) 8)
  let v := v.set c (add32 v[c] v[d])
  v.set b (rotr32 (v[b] ^^^ v[c]) 7)

/-- `ROUND(v, m, r)` (R103): four column steps, then four diagonal steps. -/
def roundStep (v : WorkVec) (m : MsgBlock) (r : Fin 7) : WorkVec :=
  let s := sigma[r]
  let v := mix v 0 4 8 12 m[s[0]] m[s[1]]
  let v := mix v 1 5 9 13 m[s[2]] m[s[3]]
  let v := mix v 2 6 10 14 m[s[4]] m[s[5]]
  let v := mix v 3 7 11 15 m[s[6]] m[s[7]]
  let v := mix v 0 5 10 15 m[s[8]] m[s[9]]
  let v := mix v 1 6 11 12 m[s[10]] m[s[11]]
  let v := mix v 2 7 8 13 m[s[12]] m[s[13]]
  mix v 3 4 9 14 m[s[14]] m[s[15]]

/-- The seven rounds of R100. -/
def rounds (v : WorkVec) (m : MsgBlock) : WorkVec :=
  let v := roundStep v m 0
  let v := roundStep v m 1
  let v := roundStep v m 2
  let v := roundStep v m 3
  let v := roundStep v m 4
  let v := roundStep v m 5
  roundStep v m 6

/-- The output: exclusive-or of the vector's halves (R105). -/
def outputHalf (v : WorkVec) : Cv := Vector.ofFn fun i => v[i.val] ^^^ v[i.val + 8]

/-- `COMPRESS(h, m, t, b, d)` (R100). -/
@[irreducible] def compress (h : Cv) (m : MsgBlock) (t : BitVec 64) (b : BitVec 7) (d : BitVec 4) : Cv :=
  outputHalf (rounds (initVector h t b d) m)

/-- The core's answer to a request (R79, R100). -/
def coreAnswer (r : Request) : Cv := compress r.args.h r.args.m r.args.t r.args.b r.d

end Sys2Proof.Machine
end

