-- ==== Sys2Proof/Config.lean ====
section
/-! DEFINITION. The parameters of R4 that the spec leaves OPEN, and the free values of the model: contents the spec calls
unspecified (10_state.md R39, 44_finalizer.md R177, 60_exceptions.md R215). The parameters of R4 with a value stand as literals
in the types. -/

namespace Sys2Proof.Config

/-- `BEAT_BYTES` (R4): bytes per physical input beat. OPEN, and read by no rule (log 21). -/
opaque beatBytes : Nat

/-- `PORT_BINDING` (R4): the number of a binding of pins, clock and handshake. OPEN, and read by no rule (log 21). -/
opaque portBinding : Nat

/-- `LATENCY` (R4): cycles per command. OPEN, and read by no rule (log 21). -/
opaque latency : Nat

/-- The registers that can hold a free value. -/
inductive Slot where
  | buf | bufLen | blkIdx | chunkCtr | cv | digest | stk | sp
deriving DecidableEq, Repr

/-- A free value: `width` bits for element `index` of register `slot`, at the draw numbered `draw` (the state's counter
`draws`). It has no body, so nothing can be proved of its value (log 8). -/
opaque freeBits (width draw : Nat) (slot : Slot) (index : Nat) : BitVec width

/-- Free contents of the pending-block buffer. -/
@[irreducible] def freeBuffer (draw : Nat) : Buffer := Vector.ofFn fun i => freeBits 8 draw .buf i

/-- Free contents of the digest register. -/
@[irreducible] def freeDigest (draw : Nat) : Digest := Vector.ofFn fun i => freeBits 8 draw .digest i

/-- A free chaining value for `slot`, whose first word has index `base`. -/
@[irreducible] def freeCv (draw : Nat) (slot : Slot) (base : Nat) : Cv := Vector.ofFn fun i => freeBits 32 draw slot (base + i)

/-- Free contents of the merge stack's 64 entries. -/
@[irreducible] def freeStack (draw : Nat) : Vector Cv 64 := Vector.ofFn fun i => freeCv draw .stk (8 * i)

end Sys2Proof.Config
end

