-- ==== Sys2Proof/Machine/State.lean ====
section
/-! DEFINITION. The state of the block (10_state.md R20 to R33), its faults (60_exceptions.md R211) and the state right after
reset (10_state.md R39, 70_reset_and_hazards.md R240). -/

namespace Sys2Proof.Machine

/-- The context state machine `st` (R21). The code 3 is never produced by any rule, so it has no constructor (log 17). -/
inductive Phase where
  | empty | accum | final
deriving DecidableEq, Repr

/-- The faults the block raises, each with the information column of R211. All of them are TAKEN as the fault entry of R219
(`takeFault`): the step answers a next state with the code latched in `fault`, and no step answers `Outcome.fault`
(log 1; safe: it is the hardware's own behaviour). -/
inductive Fault where
  /-- 1 `F_UPDATE_AFTER_FINAL`: raised by `UPDATE` when `st = FINAL` (R212). Safe. -/
  | updateAfterFinal (st : Phase)
  /-- 2 `F_FINAL_AFTER_FINAL`: raised by `FINAL` when `st = FINAL` (R213). Safe. -/
  | finalAfterFinal (st : Phase)
  /-- 3 `F_DIGEST_BEFORE_FINAL`: raised by `RDDIG` when `st` is not `FINAL` (R214). Safe. -/
  | digestBeforeFinal (st : Phase)
  /-- 4 `F_COUNTER_OVERFLOW`: raised inside `UPDATE` when `chunk_ctr` would pass `2^64 - 1` (R215). Safe. -/
  | counterOverflow (ctr : BitVec 64)
  /-- 5 `F_RESERVED_CMD`: raised by the decoder on a first byte `0x04` to `0xFF` (R216). Safe. -/
  | reservedCmd (x : Byte)
deriving DecidableEq, Repr

/-- The reasons a step is refused. -/
inductive Refusal where
  /-- An instruction that has no meaning yet, by its mnemonic. No arm of `exec` answers it. Safe. -/
  | notModelled (mnemonic : String)
  /-- 6 `F_CORE_PRECOND`: a core exposed on its own was given `b > 64`, or a `d` outside the eight forms. Raised by the
  core request meanings and by `step`. Safe: the spec itself asks that such a request be refused (R107, R217; log 3). -/
  | corePrecond (b : BitVec 7) (d : BitVec 4)
deriving DecidableEq, Repr

/-- The state of the machine. -/
structure State where
  /-- `st`: the context state machine (R21) -/
  st : Phase
  /-- `buf[0..63]`: the pending-block buffer (R22) -/
  buf : Buffer
  /-- `buf_len`: the number of pending bytes, 0 to 64 (R23) -/
  bufLen : BitVec 7
  /-- `blk_idx`: blocks of the current chunk already compressed, 0 to 15 at rest (R24) -/
  blkIdx : BitVec 5
  /-- `chunk_ctr`: chunks completed (R25) -/
  chunkCtr : BitVec 64
  /-- `cv[0..7]`: the live chaining value (R26) -/
  cv : Cv
  /-- `digest[0..31]`: the output register (R27) -/
  digest : Digest
  /-- `fault`: the latched fault code, 0 for none (R28) -/
  fault : BitVec 4
  /-- `stk[0..63]`: the merge stack (R29) -/
  stk : Vector Cv 64
  /-- `sp`: the number of entries on the stack, 0 to 64 (R30) -/
  sp : BitVec 7
  /-- the bytes of the command stream not yet consumed (R70, log 9) -/
  cmdIn : List Byte
  /-- the response stream so far, first byte first (R76, log 9) -/
  respOut : List Byte
  /-- hardware reset asserted by the host and not yet taken (R240, log 10) -/
  resetReq : Bool
  /-- requests waiting at the port of a core exposed on its own (R79, R217; log 2) -/
  coreIn : List Request
  /-- the answers of that core so far (R79 `out`; log 2) -/
  coreOut : List Cv
  /-- MODEL's own: the information column of R211 for the latched fault (log 12) -/
  diag : Option Fault
  /-- MODEL's own: the number of draws of free values so far (log 8) -/
  draws : Nat
  /-- MODEL's own: the requests the block has issued to its core since `INIT` or reset, in order (log 13) -/
  coreLog : List Request
deriving DecidableEq, Repr

/-- The state right after reset (R39, R240). `buf`, `stk` and `digest` are unspecified there; their zeros are the model's
choice (log 4). -/
def State.reset : State where
  st := .empty
  buf := Vector.replicate 64 0
  bufLen := 0
  blkIdx := 0
  chunkCtr := 0
  cv := iv
  digest := Vector.replicate 32 0
  fault := 0
  stk := Vector.replicate 64 (Vector.replicate 8 0)
  sp := 0
  cmdIn := []
  respOut := []
  resetReq := false
  coreIn := []
  coreOut := []
  diag := none
  draws := 0
  coreLog := []

end Sys2Proof.Machine
end

