-- ==== Sys2Proof/Machine/Flags.lean ====
section
/-! DEFINITION. Domain flag sets (10_state.md R32, R38; 42_context_ingest.md R132; 44_finalizer.md R173), fault codes
(60_exceptions.md R211) and the `STATUS` word (10_state.md R33). There are no other flags. -/

namespace Sys2Proof.Machine

/-- The 2-bit code of `st` (R21). -/
def Phase.code : Phase → BitVec 2
  | .empty => 0
  | .accum => 1
  | .final => 2

/-- The code of a fault (R211). -/
def Fault.code : Fault → BitVec 4
  | .updateAfterFinal _ => 1
  | .finalAfterFinal _ => 2
  | .digestBeforeFinal _ => 3
  | .counterOverflow _ => 4
  | .reservedCmd _ => 5

/-- `STATUS`: bits 1:0 `st`, bits 3:2 zero, bits 7:4 `fault`, bits 31:8 zero (R33). The host reads it at any time (R198). -/
def statusWord (s : State) : BitVec 32 := 0#24 ++ s.fault ++ 0#2 ++ s.st.code

/-- `BLOCK_FLAGS()` for block index `blkIdx` (R132). -/
def blockFlags (blkIdx : BitVec 5) : BitVec 4 :=
  (if blkIdx = 0 then chunkStart else 0) ||| (if blkIdx = 15 then chunkEnd else 0)

/-- The flags of the last chunk compression (R173). -/
def finalFlags (blkIdx : BitVec 5) (sp : BitVec 7) : BitVec 4 :=
  chunkEnd ||| (if blkIdx = 0 then chunkStart else 0) ||| (if sp = 0 then rootFlag else 0)

/-- The flags of a parent compression (R153). -/
def parentFlags (root : Bool) : BitVec 4 := parentFlag ||| (if root then rootFlag else 0)

end Sys2Proof.Machine
end

