-- ==== Sys2Proof/Machine/Ops.lean ====
section
/-! DEFINITION. The shared operations over the state: the fault gate and fault entry (45_host_commands.md R196,
60_exceptions.md R219), hardware reset, the one return from a fault (R220, 70_reset_and_hazards.md R240), a fresh context
(R191), free values where the spec leaves contents unspecified, the response stream, the buffer, and the core port. -/

namespace Sys2Proof.Machine

/-- The answer of a command. -/
abbrev Answer := Host.Outcome State Fault Refusal

/-! ## Faults -/

/-- `GATE()` (R196): while a fault is latched the command is dropped whole. -/
def gate (s : State) (run : State → Answer) : Answer := if s.fault ≠ 0 then .next s else run s

/-- Fault entry (R219): `fault` takes the code and every other piece of state keeps its value; there is no handler, no saved
address and no mode change. `diag` keeps the information column of R211 (log 12). -/
def takeFault (f : Fault) (s : State) : State := { s with fault := f.code, diag := some f }

/-- A context whose registers other than `st` and `digest` are unspecified: all of them hold free values (log 6, log 7). -/
def spendContext (s : State) : State :=
  { s with
    buf := Config.freeBuffer s.draws
    bufLen := Config.freeBits 7 s.draws .bufLen 0
    blkIdx := Config.freeBits 5 s.draws .blkIdx 0
    chunkCtr := Config.freeBits 64 s.draws .chunkCtr 0
    cv := Config.freeCv s.draws .cv 0
    stk := Config.freeStack s.draws
    sp := Config.freeBits 7 s.draws .sp 0
    draws := s.draws + 1 }

/-- Unspecified contents of `digest` (R39). -/
def freeTheDigest (s : State) : State :=
  { s with digest := Config.freeDigest s.draws, draws := s.draws + 1 }

/-- Fault entry of `F_COUNTER_OVERFLOW` (R215): `before` is `st` before the command, which a fault does not change (R190); the
context's other registers are unspecified. -/
def takeOverflow (before : Phase) (s : State) : State :=
  takeFault (.counterOverflow s.chunkCtr) (freeTheDigest (spendContext { s with st := before }))

/-! ## Fresh contexts and reset -/

/-- `MS_CLEAR()` (43_merge_stack.md R150): the entries stay, stale. -/
def msClear (s : State) : State := { s with sp := 0 }

/-- The registers of a fresh context (R191); `buf` and `stk` keep their stale content and `digest` becomes unspecified
(R39, log 5). -/
def freshContext (s : State) : State :=
  msClear (freeTheDigest
    { s with st := .empty, bufLen := 0, blkIdx := 0, chunkCtr := 0, cv := iv, coreLog := [] })

/-- Hardware reset (R240): the effect of `INIT`, and `fault` is cleared. Unconsumed command bytes are dropped, and `buf`, `stk`
and `digest` become unspecified (R241). -/
def hardReset (s : State) : State :=
  { freshContext { s with buf := Config.freeBuffer s.draws, stk := Config.freeStack s.draws } with
    fault := 0, diag := none, cmdIn := [], resetReq := false }

/-! ## The response stream -/

/-- Append the 32 bytes of the digest register to the response stream, `digest[0]` first (30_encoding.md R76). -/
def respondDigest (s : State) : State := { s with respOut := s.respOut ++ s.digest.toList }

/-! ## The pending-block buffer -/

/-- `MemWrite(buf, i, 1, v)` for the bytes of a list at consecutive indices from `i` (00_scope.md R9). Index 64 and above does
not exist and is not written (log 14). -/
def writeBytes (buf : Buffer) : Nat → List Byte → Buffer
  | _, [] => buf
  | i, x :: xs => writeBytes (buf.setIfInBounds i x) (i + 1) xs

/-- The padding of 44_finalizer.md R171: bytes from index `n` up become zero. -/
@[irreducible] def padBuffer (buf : Buffer) (n : Nat) : Buffer := Vector.ofFn fun i => if i.val < n then buf[i.val] else 0

/-! ## The core port -/

/-- Issue a request to the block's own core (40_compression_core.md R118); the log is the model's own (log 13). -/
def issue (r : Request) (s : State) : State := { s with coreLog := s.coreLog ++ [r] }

/-- A request served by a core exposed on its own: it answers `COMPRESS`, or is refused where the caller's guarantee
`b ≤ 64` does not hold (R107, R217). It reads no state and writes none but its answer (R106). -/
def serveRequest (d : BitVec 4) (a : CoreArgs) (s : State) : Answer :=
  if a.b.toNat ≤ 64 then .next { s with coreOut := s.coreOut ++ [coreAnswer ⟨a, d⟩] }
  else .refused (.corePrecond a.b d)

end Sys2Proof.Machine
end

