-- ==== Sys2Proof/Machine/CoreRequests.lean ====
section
/-! DEFINITION. The eight core request forms on a core exposed on its own (40_compression_core.md R100, R107, R110 to R117).
Inside the block the same requests are issued by `UPDATE` and `FINAL` (Machine/MergeStack, Ingest, Finalizer). -/

namespace Sys2Proof.Machine

/-- `CHUNK_MID`, `d = 0x0` (R110). -/
def execChunkMid (a : CoreArgs) (s : State) : Answer := serveRequest 0x0 a s

/-- `CHUNK_FIRST`, `d = 0x1` (R111). -/
def execChunkFirst (a : CoreArgs) (s : State) : Answer := serveRequest 0x1 a s

/-- `CHUNK_LAST`, `d = 0x2` (R112). -/
def execChunkLast (a : CoreArgs) (s : State) : Answer := serveRequest 0x2 a s

/-- `CHUNK_ONLY`, `d = 0x3` (R113). -/
def execChunkOnly (a : CoreArgs) (s : State) : Answer := serveRequest 0x3 a s

/-- `CHUNK_LAST_ROOT`, `d = 0xA` (R114). -/
def execChunkLastRoot (a : CoreArgs) (s : State) : Answer := serveRequest 0xA a s

/-- `CHUNK_ONLY_ROOT`, `d = 0xB` (R115). -/
def execChunkOnlyRoot (a : CoreArgs) (s : State) : Answer := serveRequest 0xB a s

/-- `PARENT`, `d = 0x4` (R116). -/
def execParent (a : CoreArgs) (s : State) : Answer := serveRequest 0x4 a s

/-- `PARENT_ROOT`, `d = 0xC` (R117). -/
def execParentRoot (a : CoreArgs) (s : State) : Answer := serveRequest 0xC a s

end Sys2Proof.Machine
end

