-- ==== Sys2Proof/Machine/MergeStack.lean ====
section
/-! DEFINITION. The module `merkle_stack_merge_unit` (43_merge_stack.md R151 to R158). -/

namespace Sys2Proof.Machine

/-- `MS_PUSH(c)` (R151). At `sp ≥ 64`, which no run reaches (R157), no entry exists to write (log 14). -/
def msPush (c : Cv) (s : State) : State :=
  { s with stk := s.stk.setIfInBounds s.sp.toNat c, sp := s.sp + 1 }

/-- `MS_POP()` (R152). An entry at index 64 or above, which no run reaches, reads as a free value (log 14). -/
def msPop (s : State) : Cv × State :=
  let s' := { s with sp := s.sp - 1 }
  ((s'.stk[s'.sp.toNat]?).getD (Config.freeCv s.draws .stk (8 * s'.sp.toNat)), s')

/-- The request of a parent compression (R153, 20_memory.md R55). -/
def parentRequest (left right : Cv) (root : Bool) : Request :=
  ⟨⟨iv, left ++ right, 0, 64⟩, parentFlags root⟩

/-- `PARENT_CV(left, right, root)` (R153). -/
def parentCv (left right : Cv) (root : Bool) : Cv := coreAnswer (parentRequest left right root)

/-- The loop of `MS_FOLD` and the push after it (R154); `u` is a copy of the counter. Each pass pops one entry, so `sp` is
fuel enough (log 24). -/
def msFoldLoop : Nat → Cv → BitVec 64 → State → State
  | 0, cur, _, s => msPush cur s
  | fuel + 1, cur, u, s =>
    if u.getLsbD 0 = false ∧ s.sp ≠ 0 then
      let (left, s') := msPop s
      msFoldLoop fuel (parentCv left cur false) (u >>> 1) (issue (parentRequest left cur false) s')
    else msPush cur s

/-- `MS_FOLD(c, t)` (R154). -/
def msFold (c : Cv) (t : BitVec 64) (s : State) : State := msFoldLoop s.sp.toNat c t s

/-- The loop of `MS_UNWIND` (R158); `sp` is fuel enough (log 24). -/
def msUnwindLoop : Nat → Cv → State → Cv × State
  | 0, cand, s => (cand, s)
  | fuel + 1, cand, s =>
    if s.sp ≠ 0 then
      let (left, s') := msPop s
      let root := decide (s'.sp = 0)
      msUnwindLoop fuel (parentCv left cand root) (issue (parentRequest left cand root) s')
    else (cand, s)

/-- `MS_UNWIND(cand)` (R158): the root words and the state with the stack emptied. -/
def msUnwind (cand : Cv) (s : State) : Cv × State := msUnwindLoop s.sp.toNat cand s

end Sys2Proof.Machine
end

