-- ==== Sys2Proof/Machine/Finalizer.lean ====
section
/-! DEFINITION. The finaliser, the body of `FINAL` (44_finalizer.md R170 to R176). -/

namespace Sys2Proof.Machine

/-- The request of the last chunk compression, on the padded buffer (R172 to R174). -/
def finalRequest (s : State) : Request :=
  ⟨⟨s.cv, leLoad16 s.buf, s.chunkCtr, s.bufLen⟩, finalFlags s.blkIdx s.sp⟩

/-- `FINALIZE()` (R170): pad, compress the last block, unwind the stack, serialise into `digest`. -/
def finalize (s : State) : State :=
  let s := { s with buf := padBuffer s.buf s.bufLen.toNat }
  let r := finalRequest s
  let (w, s) := msUnwind (coreAnswer r) (issue r s)
  { s with digest := leStore8 w }

end Sys2Proof.Machine
end

