-- ==== Sys2Proof/Machine/Ingest.lean ====
section
/-! DEFINITION. Streaming context ingest, the body of `UPDATE` (42_context_ingest.md R130 to R139). An operation that may raise
`F_COUNTER_OVERFLOW` answers `.error` with the state at the point of the raise. -/

namespace Sys2Proof.Machine

/-- The request of a block compression (R133). -/
def blockRequest (s : State) : Request :=
  ⟨⟨s.cv, leLoad16 s.buf, s.chunkCtr, 64⟩, blockFlags s.blkIdx⟩

/-- Chunk completion (R134): the counter is incremented, the chunk's chaining value is folded into the stack and the live one
returns to `IV`. -/
def foldChunk (s : State) : State :=
  let s := { s with chunkCtr := inc64 s.chunkCtr }
  { msFold s.cv s.chunkCtr s with cv := iv }

/-- Chunk completion, or the refusal of the increment that would wrap the counter (R139). -/
def completeChunk (s : State) : Except State State :=
  if s.chunkCtr = BitVec.allOnes 64 then .error s else .ok (foldChunk s)

/-- The first half of `BLOCK_STEP()`, and the increment of the block index (R133, R134). -/
def compressBlock (s : State) : State :=
  let r := blockRequest s
  { issue r s with cv := coreAnswer r, blkIdx := s.blkIdx + 1 }

/-- The second half of `BLOCK_STEP()` after the increment: block index 16 completes the chunk (R134). -/
def finishBlock (s : State) : Except State State :=
  if s.blkIdx = 16 then completeChunk { s with blkIdx := 0 } else .ok s

/-- `BLOCK_STEP()` (R133, R134). -/
def blockStep (s : State) : Except State State := finishBlock (compressBlock s)

/-- The copy of the leftover bytes (R135). -/
def storeTail (data : List Byte) (s : State) : State :=
  { s with buf := writeBytes s.buf s.bufLen.toNat data, bufLen := s.bufLen + BitVec.ofNat 7 data.length }

/-- The loop of `INGEST` (R130, R131). Every pass but the first consumes 64 bytes, so one more than the payload's length is
fuel enough (R252, log 24). -/
def ingestLoop : Nat → List Byte → State → Except State State
  | 0, data, s => .ok (storeTail data s)
  | fuel + 1, data, s =>
    if s.bufLen.toNat + data.length > 64 then
      let k := 64 - s.bufLen.toNat
      match blockStep { s with buf := writeBytes s.buf s.bufLen.toNat (data.take k), bufLen := 0 } with
      | .error e => .error e
      | .ok s' => ingestLoop fuel (data.drop k) s'
    else .ok (storeTail data s)

/-- `INGEST(data)` (R130). -/
def ingest (data : List Byte) (s : State) : Except State State := ingestLoop (data.length + 1) data s

/-- `ABSORB1(x)` (R136): the byte-serial form of ingest. -/
def absorb1 (x : Byte) (s : State) : Except State State :=
  match (if s.bufLen = 64 then blockStep { s with bufLen := 0 } else .ok s) with
  | .error e => .error e
  | .ok s => .ok { s with buf := s.buf.setIfInBounds s.bufLen.toNat x, bufLen := s.bufLen + 1 }

/-- `ABSORB1` of each byte in order (R136). -/
def absorbAll : List Byte → State → Except State State
  | [], s => .ok s
  | x :: xs, s =>
    match absorb1 x s with
    | .error e => .error e
    | .ok s' => absorbAll xs s'

end Sys2Proof.Machine
end

