-- ==== Sys2Proof/Machine/HostCommands.lean ====
section
/-! DEFINITION. The four host commands (45_host_commands.md R191 to R194, transition table R190) and the decoder's fault on a
reserved byte (60_exceptions.md R216). -/

namespace Sys2Proof.Machine

/-- `INIT` (R191). -/
def execInit (s : State) : Answer := gate s fun s => .next (freshContext s)

/-- `UPDATE <bytes>` (R192). -/
def execUpdate (data : List Byte) (s : State) : Answer := gate s fun s =>
  if s.st = .final then .next (takeFault (.updateAfterFinal s.st) s)
  else
    match ingest data { s with st := .accum } with
    | .ok s' => .next s'
    | .error e => .next (takeOverflow s.st e)

/-- `FINAL` (R193); afterwards only `st`, `digest` and `fault` are specified (R177). -/
def execFinal (s : State) : Answer := gate s fun s =>
  if s.st = .final then .next (takeFault (.finalAfterFinal s.st) s)
  else .next (spendContext (respondDigest { finalize s with st := .final }))

/-- `RDDIG` (R194). -/
def execRddig (s : State) : Answer := gate s fun s =>
  if s.st ≠ .final then .next (takeFault (.digestBeforeFinal s.st) s)
  else .next (respondDigest s)

/-- A reserved first byte (30_encoding.md R74, R216); the gate comes first (R218). -/
def reservedByte (x : Byte) (s : State) : Answer := gate s fun s => .next (takeFault (.reservedCmd x) s)

end Sys2Proof.Machine
end

