-- ==== Sys2Proof/Machine/Dispatch.lean ====
section
/-! DEFINITION. One arm per constructor of Instr, each one direct call of its meaning. -/

namespace Sys2Proof.Machine

def exec (i : Instr) (s : State) : Host.Outcome State Fault Refusal :=
  match i with
  | .init => Sys2Proof.Machine.execInit s
  | .update data => Sys2Proof.Machine.execUpdate data s
  | .final => Sys2Proof.Machine.execFinal s
  | .rddig => Sys2Proof.Machine.execRddig s
  | .chunkMid a => Sys2Proof.Machine.execChunkMid a s
  | .chunkFirst a => Sys2Proof.Machine.execChunkFirst a s
  | .chunkLast a => Sys2Proof.Machine.execChunkLast a s
  | .chunkOnly a => Sys2Proof.Machine.execChunkOnly a s
  | .chunkLastRoot a => Sys2Proof.Machine.execChunkLastRoot a s
  | .chunkOnlyRoot a => Sys2Proof.Machine.execChunkOnlyRoot a s
  | .parent a => Sys2Proof.Machine.execParent a s
  | .parentRoot a => Sys2Proof.Machine.execParentRoot a s

end Sys2Proof.Machine
end

