-- ==== Sys2Proof/Machine/Fetch.lean ====
section
/-! DEFINITION. What one step does with the front of the command stream (30_encoding.md R70, R74, R75; priority
60_exceptions.md R218) and with a waiting core request (R217); what the host does to the block (00_scope.md R5). -/

namespace Sys2Proof.Machine

/-- One command of the stream: a whole command is consumed and executed, a reserved byte is consumed and raises its fault,
and an incomplete command takes no step (R75). -/
def stepCommand (s : State) : Answer :=
  match decodeStream s.cmdIn with
  | .instr i rest => exec i { s with cmdIn := rest }
  | .reserved x rest => reservedByte x { s with cmdIn := rest }
  | .incomplete => .next s
  | .illegalRequest _ => .next s

/-- One request at the port of a core exposed on its own (log 2, log 3). -/
def stepRequest (r : Request) (later : List Request) (s : State) : Answer :=
  match decodeRequest r with
  | some i => exec i { s with coreIn := later }
  | none => .refused (.corePrecond r.args.b r.d)

/-- The host appends bytes to the command stream (R70). -/
def State.send (s : State) (bytes : List Byte) : State := { s with cmdIn := s.cmdIn ++ bytes }

/-- The host asserts hardware reset (R240). -/
def State.assertReset (s : State) : State := { s with resetReq := true }

/-- A client presents a request to a core exposed on its own (R217). -/
def State.present (s : State) (r : Request) : State := { s with coreIn := s.coreIn ++ [r] }

/-- An encoding placed in front of everything that waits in its space. -/
def State.place (s : State) : Encoding → State
  | .stream bytes => { s with cmdIn := bytes ++ s.cmdIn, coreIn := [], resetReq := false }
  | .port r => { s with coreIn := r :: s.coreIn, resetReq := false }

end Sys2Proof.Machine
end

