-- ==== Sys2Proof/Machine/Step.lean ====
section
/-! DEFINITION. The step: hardware reset if asserted (70_reset_and_hazards.md R240), else a waiting request of a core exposed
on its own (log 2), else the next command of the stream (30_encoding.md R70). -/

namespace Sys2Proof.Machine

/-- One step of the machine. -/
def step (s : State) : Host.Outcome State Fault Refusal :=
  if s.resetReq then .next (hardReset s)
  else
    match s.coreIn with
    | r :: later => stepRequest r later s
    | [] => stepCommand s

/-- `s` with a word of the opcode table placed where the next step fetches it: at the front of the command stream, or at the
front of the core request port (log 11). -/
def State.withFetchWord (s : State) (nbits w : Nat) : State := s.place (tableEncoding nbits w)

end Sys2Proof.Machine
end

