-- ==== Sys2Proof/Safety.lean ====
section
/-! DEFINITION. The terms claims are stated in: the position of the input (10_state.md R35), the invariants at rest (R40), the
legal request forms (30_encoding.md R81), states that differ only in what no command can read (R41), and the digest of a byte
string as a tree (43_merge_stack.md R160). -/

namespace Sys2Proof.Machine

/-! ## Invariants at rest -/

/-- The block accepts input: no fault latched and `st` is `EMPTY` or `ACCUM`. -/
abbrev Ready (s : State) : Prop := s.fault = 0 ∧ s.st ≠ .final

/-- Bytes absorbed since `INIT`, read off the registers (R35, R40 item 2). -/
def total (s : State) : Nat := 1024 * s.chunkCtr.toNat + 64 * s.blkIdx.toNat + s.bufLen.toNat

/-- The invariants of R40 that speak of registers alone. -/
structure ContextInv (s : State) : Prop where
  /-- item 1 -/
  bufLen_le : s.bufLen.toNat ≤ 64
  /-- item 1 -/
  blkIdx_le : s.blkIdx.toNat ≤ 15
  /-- item 3 -/
  empty_buf : s.bufLen = 0 → total s = 0
  /-- item 5 -/
  cv_start : s.blkIdx = 0 → s.cv = iv
  /-- item 6, R156 -/
  sp_eq : s.sp.toNat = popcount s.chunkCtr
  /-- item 8 -/
  empty_total : s.st = .empty → total s = 0

/-- The invariant every step keeps: the context is sound while the block accepts input, and the fault register holds no code
that is never latched and agrees with its information (R28, R211). -/
structure RestInv (s : State) : Prop where
  context : Ready s → ContextInv s
  fault_legal : s.fault.toNat ≤ 5
  fault_info : s.fault = match s.diag with
    | none => 0
    | some f => f.code

/-- The eight legal request forms with the `h`, `t` and `b` each is issued with (R81). -/
def LegalForm (r : Request) : Prop :=
  (r.d = 0x0 ∧ r.args.b = 64) ∨
  (r.d = 0x1 ∧ r.args.h = iv ∧ r.args.b = 64) ∨
  (r.d = 0x2 ∧ 1 ≤ r.args.b.toNat ∧ r.args.b.toNat ≤ 64) ∨
  (r.d = 0x3 ∧ r.args.h = iv ∧ 1 ≤ r.args.t.toNat ∧ 1 ≤ r.args.b.toNat ∧ r.args.b.toNat ≤ 64) ∨
  (r.d = 0xA ∧ r.args.t = 0 ∧ 1 ≤ r.args.b.toNat ∧ r.args.b.toNat ≤ 64) ∨
  (r.d = 0xB ∧ r.args.h = iv ∧ r.args.t = 0 ∧ r.args.b.toNat ≤ 64) ∨
  (r.d = 0x4 ∧ r.args.h = iv ∧ r.args.t = 0 ∧ r.args.b = 64) ∨
  (r.d = 0xC ∧ r.args.h = iv ∧ r.args.t = 0 ∧ r.args.b = 64)

/-- A request whose `d` has `ROOT`. -/
def hasRoot (r : Request) : Bool := r.d.getLsbD 3

/-- A request whose `d` has `PARENT`. -/
def hasParent (r : Request) : Bool := r.d.getLsbD 2

/-- What the requests issued since `INIT` or reset satisfy: each is a legal form (R81, R107), and one of them carries `ROOT`,
the last, once `FINAL` has run and none before (R178). -/
structure RequestInv (s : State) : Prop where
  legal : ∀ r ∈ s.coreLog, LegalForm r
  roots : s.coreLog.countP hasRoot = if s.st = .final then 1 else 0
  root_last : s.st = .final → ∃ before r, s.coreLog = before ++ [r] ∧ hasRoot r = true

/-- The work done so far, in compressions (R141). -/
structure WorkInv (s : State) : Prop where
  blocks : Ready s → s.coreLog.countP (fun r => !hasParent r) = (total s - 1) / 64
  parents : Ready s → s.coreLog.countP hasParent + popcount s.chunkCtr = s.chunkCtr.toNat

/-! ## Comparing states -/

/-- The context of R140: everything of it that a later command can use, and all 64 bytes of `buf`. -/
structure SameContext (s u : State) : Prop where
  st : s.st = u.st
  buf : s.buf = u.buf
  bufLen : s.bufLen = u.bufLen
  blkIdx : s.blkIdx = u.blkIdx
  chunkCtr : s.chunkCtr = u.chunkCtr
  cv : s.cv = u.cv
  sp : s.sp = u.sp
  stk : ∀ i, i < s.sp.toNat → s.stk[i]? = u.stk[i]?

/-- States that differ only in what no command can read (R41, R177, R241): the stale bytes of `buf`, the stale entries of
`stk`, `digest` outside `FINAL`, every context register in `FINAL`, all of the context once a fault is latched, and the
model's own fields. -/
structure SameVisible (s u : State) : Prop where
  st : s.st = u.st
  fault : s.fault = u.fault
  cmdIn : s.cmdIn = u.cmdIn
  respOut : s.respOut = u.respOut
  resetReq : s.resetReq = u.resetReq
  coreIn : s.coreIn = u.coreIn
  coreOut : s.coreOut = u.coreOut
  digest : s.fault = 0 → s.st = .final → s.digest = u.digest
  bufLen : Ready s → s.bufLen = u.bufLen
  blkIdx : Ready s → s.blkIdx = u.blkIdx
  chunkCtr : Ready s → s.chunkCtr = u.chunkCtr
  cv : Ready s → s.cv = u.cv
  sp : Ready s → s.sp = u.sp
  buf : Ready s → ∀ i, i < s.bufLen.toNat → s.buf[i]? = u.buf[i]?
  stk : Ready s → ∀ i, i < s.sp.toNat → s.stk[i]? = u.stk[i]?

/-- Commands one after another, stopping at the first stop. -/
def runCommands : List Instr → State → Answer
  | [], s => .next s
  | i :: is, s =>
    match exec i s with
    | .next s' => runCommands is s'
    | .fault f => .fault f
    | .refused r => .refused r

/-! ## The digest of a byte string, as a tree -/

/-- The unwind of R158 over the stack's entries, top first. -/
def unwindValue : List Cv → Cv → Cv
  | [], cand => cand
  | [left], cand => compress iv (left ++ cand) 0 64 0xC
  | left :: next :: older, cand => unwindValue (next :: older) (compress iv (left ++ cand) 0 64 0x4)

/-- A block of at most 64 bytes, padded with zeros (R82, R171). -/
def paddedBlock (bytes : List Byte) : Buffer := Vector.ofFn fun i => bytes.getD i 0

/-- The chaining value of the rest of a chunk from chaining value `h` on, `start` telling whether its first block is the
chunk's first, `root` whether its last compression carries `ROOT`; `fuel` bounds the number of blocks (R160). -/
def chunkFrom (t : BitVec 64) (root : Bool) : Nat → Bool → Cv → List Byte → Cv
  | 0, _, h, _ => h
  | fuel + 1, start, h, bytes =>
    let first : BitVec 4 := if start then 0x1 else 0x0
    if bytes.length > 64 then
      chunkFrom t root fuel false (compress h (leLoad16 (paddedBlock (bytes.take 64))) t 64 first) (bytes.drop 64)
    else
      compress h (leLoad16 (paddedBlock bytes)) t (BitVec.ofNat 7 bytes.length)
        (first ||| 0x2 ||| if root then 0x8 else 0x0)

/-- `CHUNK(i)` of R160 for the input `data`. -/
def chunkValue (data : List Byte) (i : Nat) (root : Bool) : Cv :=
  chunkFrom (BitVec.ofNat 64 i) root 16 true iv ((data.drop (1024 * i)).take 1024)

/-- `SUB(i, k)` of R160, `root` added to the flags of its outermost compression; `k` is fuel enough. -/
def subtree (data : List Byte) : Nat → Nat → Nat → Bool → Cv
  | 0, i, _, root => chunkValue data i root
  | fuel + 1, i, k, root =>
    if k ≤ 1 then chunkValue data i root
    else
      let left := 2 ^ (k - 1).log2
      compress iv (subtree data fuel i left false ++ subtree data fuel (i + left) (k - left) false) 0 64
        (if root then 0xC else 0x4)

/-- The number of chunks of an input (R160): 1 for the empty input. -/
def chunkCount (data : List Byte) : Nat := (data.length - 1) / 1024 + 1

/-- The digest R160 gives the input. -/
def treeDigest (data : List Byte) : Digest :=
  leStore8 (subtree data (chunkCount data) 0 (chunkCount data) true)

end Sys2Proof.Machine
end

