-- ==== Sys2Proof/Certificates/Slice0/Obligations.lean ====
section
/-! DEFINITION. The statements for the provers. Each docstring names the rules of spec/ it formalises. -/

open Sys2Proof Sys2Proof.Machine

/-! ## Encoding -/

/-- R70 to R73, R79, R81: decoding what is encoded gives the instruction back, for every well-formed instruction; for a
command also with any bytes after it, which are left over. -/
def Obligations.DecodeOfEncodeIsTheInstruction : Prop :=
  ∀ i : Instr, i.wf = true →
    decode (encode i) = .instr i [] ∧
    ∀ bytes rest, encode i = .stream bytes → decodeStream (bytes ++ rest) = .instr i rest

/-- R70 to R73: a decoded command is well-formed, and the bytes it was read from are its one encoding. -/
def Obligations.DecodedCommandHasOneEncoding : Prop :=
  ∀ s i rest, decodeStream s = .instr i rest →
    i.wf = true ∧ ∃ bytes, encode i = .stream bytes ∧ s = bytes ++ rest

/-- R81: the request forms are selected by `d` alone, and a request of every other `d` is none of them. -/
def Obligations.RequestFormsAreSelectedByFlags : Prop :=
  ∀ a : CoreArgs,
    decodeRequest ⟨a, 0x0⟩ = some (.chunkMid a) ∧ decodeRequest ⟨a, 0x1⟩ = some (.chunkFirst a) ∧
    decodeRequest ⟨a, 0x2⟩ = some (.chunkLast a) ∧ decodeRequest ⟨a, 0x3⟩ = some (.chunkOnly a) ∧
    decodeRequest ⟨a, 0xA⟩ = some (.chunkLastRoot a) ∧ decodeRequest ⟨a, 0xB⟩ = some (.chunkOnlyRoot a) ∧
    decodeRequest ⟨a, 0x4⟩ = some (.parent a) ∧ decodeRequest ⟨a, 0xC⟩ = some (.parentRoot a) ∧
    ∀ d ∈ ([0x5, 0x6, 0x7, 0x8, 0x9, 0xD, 0xE, 0xF] : List (BitVec 4)), decodeRequest ⟨a, d⟩ = none

/-- The words of 95_test_vectors.md V-E1 to V-E7 and V-E10 to V-E15 decode as the spec writes them. -/
def Obligations.VectorWordsDecodeAsWritten : Prop :=
  decodeStream [0x00] = .instr .init [] ∧
  decodeStream [0x02] = .instr .final [] ∧
  decodeStream [0x03] = .instr .rddig [] ∧
  decodeStream [0x01, 0, 0, 0, 0, 0, 0, 0, 0] = .instr (.update []) [] ∧
  decodeStream [0x01, 3, 0, 0, 0, 0, 0, 0, 0, 0x61, 0x62, 0x63] = .instr (.update [0x61, 0x62, 0x63]) [] ∧
  decodeStream [0x01, 1, 0, 0, 0, 0, 0, 0, 0, 0] = .instr (.update [0]) [] ∧
  decodeStream [0x01, 2, 0, 0, 0, 0, 0, 0, 0, 2, 3, 2] = .instr (.update [2, 3]) [2] ∧
  decodeStream [0x04] = .reserved 0x04 [] ∧
  decodeStream [0xff] = .reserved 0xff [] ∧
  decodeStream [0x81] = .reserved 0x81 [] ∧
  decodeStream [0x01, 5, 0, 0, 0, 0, 0, 0, 0, 0x61, 0x62] = .incomplete ∧
  decodeStream [0x01, 3, 0, 0] = .incomplete ∧
  decodeStream [] = .incomplete

/-! ## The step -/

/-- R70: with no reset asserted and no request waiting at the exposed core, a step whose command stream begins with a whole
command consumes it and is `exec` of it. -/
def Obligations.StepRunsTheDecodedCommand : Prop :=
  ∀ s i rest, s.resetReq = false → s.coreIn = [] → decodeStream s.cmdIn = .instr i rest →
    step s = exec i { s with cmdIn := rest }

/-- The exposed core (log 2): with no reset asserted, a step serves the oldest waiting request; one of a legal form is `exec` of
that form, and one of any other `d` is refused (R107, R217). -/
def Obligations.StepServesTheWaitingRequest : Prop :=
  ∀ s r later, s.resetReq = false → s.coreIn = r :: later →
    (∀ i, decodeRequest r = some i → step s = exec i { s with coreIn := later }) ∧
    (decodeRequest r = none → step s = .refused (.corePrecond r.args.b r.d))

/-- R216: a first byte with any of bits 7:2 set is consumed and raises fault 5, and the context is not changed. That `diag`
holds the information column of R211 is the model's choice (log 12). -/
def Obligations.ReservedByteRaisesFaultFive : Prop :=
  ∀ s x rest, s.resetReq = false → s.coreIn = [] → s.cmdIn = x :: rest → x.toNat / 4 ≠ 0 → s.fault = 0 →
    step s = .next { s with cmdIn := rest, fault := 5, diag := some (.reservedCmd x) }

/-- R75: a stream that is empty, or ends inside an `UPDATE`, holds no command: the block takes no step and keeps waiting. -/
def Obligations.IncompleteCommandTakesNoStep : Prop :=
  ∀ s, s.resetReq = false → s.coreIn = [] →
    (s.cmdIn = [] ∨ ∃ tail, s.cmdIn = 0x01 :: tail ∧
      (tail.length < 8 ∨ tail.length < 8 + leNat (tail.take 8))) →
    step s = .next s

/-! ## Reset -/

/-- R39, R240: the state after reset, in the registers the rule gives a value. -/
def Obligations.ResetStateHoldsTheStatedValues : Prop :=
  State.reset.st = .empty ∧ State.reset.bufLen = 0 ∧ State.reset.blkIdx = 0 ∧ State.reset.chunkCtr = 0 ∧
  State.reset.cv = #v[0x6A09E667, 0xBB67AE85, 0x3C6EF372, 0xA54FF53A, 0x510E527F, 0x9B05688C, 0x1F83D9AB, 0x5BE0CD19] ∧
  State.reset.sp = 0 ∧ State.reset.fault = 0 ∧ statusWord State.reset = 0

/-- R240: reset in any state gives the fresh context, clears the fault and drops the unconsumed bytes of the command stream;
an `INIT` after it changes none of the registers the rule gives. That the response stream and the exposed core's port keep
what they hold is the model's choice (log 19). -/
def Obligations.HardwareResetGivesAFreshContext : Prop :=
  ∀ s, s.resetReq = true → ∃ t u, step s = .next t ∧ exec .init t = .next u ∧
    t.st = .empty ∧ t.bufLen = 0 ∧ t.blkIdx = 0 ∧ t.chunkCtr = 0 ∧ t.cv = iv ∧ t.sp = 0 ∧ t.fault = 0 ∧
    t.cmdIn = [] ∧ t.resetReq = false ∧ t.respOut = s.respOut ∧ t.coreIn = s.coreIn ∧ t.coreOut = s.coreOut ∧
    u.st = t.st ∧ u.bufLen = t.bufLen ∧ u.blkIdx = t.blkIdx ∧ u.chunkCtr = t.chunkCtr ∧ u.cv = t.cv ∧
    u.sp = t.sp ∧ u.fault = t.fault ∧ u.buf = t.buf ∧ u.stk = t.stk ∧ u.cmdIn = t.cmdIn ∧ u.respOut = t.respOut

/-! ## Host commands -/

/-- R191, R39: `INIT` from any state without a fault gives the fresh context, answers nothing and keeps `buf`, `stk` and
everything outside the context; of `digest`, which R39 calls unspecified, nothing is said (log 5). -/
def Obligations.InitGivesAFreshContext : Prop :=
  ∀ s, s.fault = 0 → ∃ t, exec .init s = .next t ∧
    t.st = .empty ∧ t.bufLen = 0 ∧ t.blkIdx = 0 ∧ t.chunkCtr = 0 ∧ t.cv = iv ∧ t.sp = 0 ∧
    t.buf = s.buf ∧ t.stk = s.stk ∧ t.fault = 0 ∧ t.diag = s.diag ∧ t.cmdIn = s.cmdIn ∧ t.respOut = s.respOut ∧
    t.resetReq = s.resetReq ∧ t.coreIn = s.coreIn ∧ t.coreOut = s.coreOut

/-- R131, R135, R192: an `UPDATE` whose bytes fit the buffer only stores them; when they fill it the block is not compressed.
Everything but `st`, `buf` and `buf_len` keeps its value. -/
def Obligations.UpdateWithinTheBufferOnlyStores : Prop :=
  ∀ s data, s.fault = 0 → s.st ≠ .final → s.bufLen.toNat + data.length ≤ 64 →
    ∃ t, exec (.update data) s = .next t ∧
      t = { s with st := .accum, buf := t.buf, bufLen := t.bufLen } ∧
      t.bufLen.toNat = s.bufLen.toNat + data.length ∧
      (∀ k, k < data.length → t.buf[s.bufLen.toNat + k]? = data[k]?) ∧
      (∀ j, j < s.bufLen.toNat ∨ s.bufLen.toNat + data.length ≤ j → t.buf[j]? = s.buf[j]?)

/-- R137, R192: a zero-length `UPDATE` moves `st` to `ACCUM` and changes nothing else. -/
def Obligations.EmptyUpdateOnlyMovesToAccum : Prop :=
  ∀ s, s.fault = 0 → s.st ≠ .final → s.bufLen.toNat ≤ 64 →
    exec (.update []) s = .next { s with st := .accum }

/-- R131, R133, R134: one more byte on a full buffer, before block 15 of a chunk, compresses the buffer into `cv`, counts the
block, and stores the byte at index 0. -/
def Obligations.ByteOnFullBufferCompressesTheBlock : Prop :=
  ∀ s x, s.fault = 0 → s.st ≠ .final → s.bufLen = 64 → s.blkIdx.toNat < 15 →
    ∃ t, exec (.update [x]) s = .next t ∧
      t.cv = compress s.cv (leLoad16 s.buf) s.chunkCtr 64 (if s.blkIdx = 0 then 0x1 else 0x0) ∧
      t = { s with
        st := .accum, cv := t.cv, blkIdx := s.blkIdx + 1, bufLen := 1, buf := s.buf.set 0 x
        coreLog := s.coreLog ++ [⟨⟨s.cv, leLoad16 s.buf, s.chunkCtr, 64⟩, if s.blkIdx = 0 then 0x1 else 0x0⟩] }

/-- R133, R134: one more byte on a full buffer at block 15 completes the chunk: the counter is incremented, the chunk's value is
folded into the stack, `cv` returns to `IV` and the block index to 0. -/
def Obligations.SixteenthBlockCompletesTheChunk : Prop :=
  ∀ s x, s.fault = 0 → s.st ≠ .final → s.bufLen = 64 → s.blkIdx = 15 → s.chunkCtr.toNat < 2 ^ 64 - 1 →
    ∃ t, exec (.update [x]) s = .next t ∧
      t.chunkCtr.toNat = s.chunkCtr.toNat + 1 ∧ t.blkIdx = 0 ∧ t.cv = iv ∧ t.bufLen = 1 ∧ t.buf = s.buf.set 0 x ∧
      t.st = .accum ∧ t.fault = 0 ∧
      t.sp = (msFold (compress s.cv (leLoad16 s.buf) s.chunkCtr 64 0x2) (s.chunkCtr + 1) s).sp ∧
      t.stk = (msFold (compress s.cv (leLoad16 s.buf) s.chunkCtr 64 0x2) (s.chunkCtr + 1) s).stk ∧
      t.digest = s.digest ∧ t.diag = s.diag ∧ t.cmdIn = s.cmdIn ∧ t.respOut = s.respOut ∧ t.resetReq = s.resetReq ∧
      t.coreIn = s.coreIn ∧ t.coreOut = s.coreOut

/-- R141, R142, R192: within the bound of R139 an `UPDATE` completes, adds its length to the position, leaves the registers where
R141 says, and writes nothing outside the context; `digest` and `fault` are not written. -/
def Obligations.UpdateAdvancesThePosition : Prop :=
  ∀ s data, RestInv s → Ready s → total s + data.length ≤ 2 ^ 74 →
    ∃ t, exec (.update data) s = .next t ∧ t.st = .accum ∧ total t = total s + data.length ∧
      (0 < total t → t.bufLen.toNat = (total t - 1) % 64 + 1 ∧ t.blkIdx.toNat = (total t - 1) / 64 % 16 ∧
        t.chunkCtr.toNat = (total t - 1) / 1024) ∧
      t.digest = s.digest ∧ t.fault = 0 ∧ t.diag = s.diag ∧ t.cmdIn = s.cmdIn ∧ t.respOut = s.respOut ∧
      t.resetReq = s.resetReq ∧ t.coreIn = s.coreIn ∧ t.coreOut = s.coreOut

/-- R135: the byte at offset `o` of the absorbed input is written to `buf[o mod 64]`, and no other byte of `buf` is written. -/
def Obligations.AbsorbedBytesLandAtTheirOffset : Prop :=
  ∀ s data t, RestInv s → Ready s → total s + data.length ≤ 2 ^ 74 → exec (.update data) s = .next t →
    (∀ k, k < data.length → data.length ≤ k + 64 → t.buf[(total s + k) % 64]? = data[k]?) ∧
    (∀ j, (∀ k, k < data.length → (total s + k) % 64 ≠ j) → t.buf[j]? = s.buf[j]?)

/-- R139, R215: an `UPDATE` that takes the input past `2^74` bytes raises fault 4; `st` keeps its value and nothing is
responded. That `diag` holds the information column of R211 is the model's choice (log 12). -/
def Obligations.UpdatePastTheBoundRaisesOverflow : Prop :=
  ∀ s data, RestInv s → Ready s → 2 ^ 74 < total s + data.length →
    ∃ t, exec (.update data) s = .next t ∧ t.fault = 4 ∧ t.diag = some (.counterOverflow (BitVec.allOnes 64)) ∧
      t.st = s.st ∧ t.cmdIn = s.cmdIn ∧ t.respOut = s.respOut ∧ t.resetReq = s.resetReq ∧
      t.coreIn = s.coreIn ∧ t.coreOut = s.coreOut

/-- R212: an `UPDATE` in `st = FINAL`, of any length, is consumed whole and raises fault 1; the context and `digest` are not
changed. That `diag` holds the information column of R211 is the model's choice (log 12). -/
def Obligations.UpdateAfterFinalRaisesFaultOne : Prop :=
  ∀ s data rest, s.resetReq = false → s.coreIn = [] → decodeStream s.cmdIn = .instr (.update data) rest →
    s.fault = 0 → s.st = .final →
    step s = .next { s with cmdIn := rest, fault := 1, diag := some (.updateAfterFinal .final) }

/-- R213: a `FINAL` in `st = FINAL` raises fault 2, and no response is produced. That `diag` holds the information column of
R211 is the model's choice (log 12). -/
def Obligations.FinalAfterFinalRaisesFaultTwo : Prop :=
  ∀ s, s.fault = 0 → s.st = .final →
    exec .final s = .next { s with fault := 2, diag := some (.finalAfterFinal .final) }

/-- R214: an `RDDIG` in `EMPTY` or `ACCUM` raises fault 3, and no response is produced. That `diag` holds the information
column of R211 is the model's choice (log 12). -/
def Obligations.ReadBeforeFinalRaisesFaultThree : Prop :=
  ∀ s, s.fault = 0 → s.st ≠ .final →
    exec .rddig s = .next { s with fault := 3, diag := some (.digestBeforeFinal s.st) }

/-- R194: gated by a latched fault; fault 3 outside `FINAL`; in `FINAL`, the 32 bytes of `digest` are responded, no state is
changed and it may be repeated; after a `FINAL` the response is that `FINAL`'s own. That `diag` holds the
information column of R211 on the fault is the model's choice (log 12). -/
def Obligations.RddigRespondsTheLatchedDigest : Prop :=
  ∀ s, (s.fault ≠ 0 → exec .rddig s = .next s) ∧
    (s.fault = 0 → s.st ≠ .final → exec .rddig s = .next { s with fault := 3, diag := some (.digestBeforeFinal s.st) }) ∧
    (s.fault = 0 → s.st = .final → ∃ t,
      exec .rddig s = .next t ∧ t = { s with respOut := s.respOut ++ s.digest.toList } ∧
      exec .rddig t = .next { s with respOut := s.respOut ++ s.digest.toList ++ s.digest.toList }) ∧
    (Ready s → ∃ t u D, exec .final s = .next t ∧ exec .rddig t = .next u ∧ D.length = 32 ∧
      t.respOut = s.respOut ++ D ∧ u.respOut = s.respOut ++ D ++ D)

/-- R170 to R176, R193: `FINAL` pads the buffer with zeros, compresses it with `b = buf_len` and the flags of R173, unwinds the
stack from its top, latches the serialised result and responds it. What it leaves in the other context registers is
unspecified (R177) and nothing is said of it. -/
def Obligations.FinalPadsCompressesAndUnwinds : Prop :=
  ∀ s, s.fault = 0 → s.st ≠ .final → s.sp.toNat ≤ 64 →
    ∃ t padded d, exec .final s = .next t ∧
      (∀ i, i < 64 → padded[i]? = if i < s.bufLen.toNat then s.buf[i]? else some 0) ∧
      d = (if s.blkIdx = 0 then (if s.sp = 0 then 0xB else 0x3) else (if s.sp = 0 then 0xA else 0x2)) ∧
      t.digest = leStore8 (unwindValue (s.stk.toList.take s.sp.toNat).reverse
        (compress s.cv (leLoad16 padded) s.chunkCtr s.bufLen d)) ∧
      t.respOut = s.respOut ++ t.digest.toList ∧ t.st = .final ∧ t.fault = 0 ∧ t.diag = s.diag ∧
      t.cmdIn = s.cmdIn ∧ t.resetReq = s.resetReq ∧ t.coreIn = s.coreIn ∧ t.coreOut = s.coreOut

/-- R190: the transition table, every pair of state and command; a fault does not change `st`; reset enters `EMPTY`. R139,
R192, R215: the one way out of the table is the overflow, which an `UPDATE` in a state meeting the invariants raises exactly
when it takes the input past `2^74` bytes. -/
def Obligations.TransitionTable : Prop :=
  ∀ s, s.fault = 0 →
    (∃ t, exec .init s = .next t ∧ t.st = .empty ∧ t.fault = 0) ∧
    (s.st ≠ .final → ∀ data, ∃ t, exec (.update data) s = .next t ∧
      ((t.st = .accum ∧ t.fault = 0) ∨ (t.st = s.st ∧ t.fault = 4)) ∧
      (RestInv s → (t.fault = 4 ↔ 2 ^ 74 < total s + data.length))) ∧
    (s.st = .final → ∀ data, ∃ t, exec (.update data) s = .next t ∧ t.st = .final ∧ t.fault = 1) ∧
    (s.st ≠ .final → ∃ t, exec .final s = .next t ∧ t.st = .final ∧ t.fault = 0) ∧
    (s.st = .final → ∃ t, exec .final s = .next t ∧ t.st = .final ∧ t.fault = 2) ∧
    (s.st ≠ .final → ∃ t, exec .rddig s = .next t ∧ t.st = s.st ∧ t.fault = 3) ∧
    (s.st = .final → ∃ t, exec .rddig s = .next t ∧ t.st = .final ∧ t.fault = 0) ∧
    (∃ t, step { s with resetReq := true } = .next t ∧ t.st = .empty ∧ t.fault = 0)

/-- R33: the fields of `STATUS`. -/
def Obligations.StatusWordFields : Prop :=
  ∀ s, (statusWord s).extractLsb' 0 2 = (match s.st with | .empty => 0 | .accum => 1 | .final => 2) ∧
    (statusWord s).extractLsb' 2 2 = 0 ∧ (statusWord s).extractLsb' 4 4 = s.fault ∧
    (statusWord s).extractLsb' 8 24 = 0

/-! ## Faults -/

/-- R196: while a fault is latched every command is dropped whole, the reserved byte included: the stream moves past it and
nothing else changes. -/
def Obligations.FaultGateDropsEveryCommand : Prop :=
  ∀ s, s.fault ≠ 0 →
    (∀ i bytes, encode i = .stream bytes → exec i s = .next s) ∧
    (s.resetReq = false → s.coreIn = [] → ∃ rest, step s = .next { s with cmdIn := rest } ∧
      (∀ i later, decodeStream s.cmdIn = .instr i later → rest = later) ∧
      (∀ x later, decodeStream s.cmdIn = .reserved x later → rest = later))

/-- R219, R220: once a fault is latched no step but a hardware reset changes the code, the context or the response stream, and
a hardware reset clears the code. -/
def Obligations.OnlyResetLeavesTheFault : Prop :=
  ∀ s t, s.fault ≠ 0 → step s = .next t →
    (s.resetReq = true → t.fault = 0) ∧
    (s.resetReq = false →
      t = { s with cmdIn := t.cmdIn, coreIn := t.coreIn, coreOut := t.coreOut })

/-! ## The compression core -/

/-- R102: the mixing step rewrites the four words it names, by eight assignments in order, and no other word. -/
def Obligations.MixStepRewritesItsFourWords : Prop :=
  ∀ (v : WorkVec) (a b c d : Fin 16) (x y : Word), [a, b, c, d].Nodup →
    ∃ a1 d1 c1 b1 a2 d2 c2 b2 : Word,
      a1 = v[a] + v[b] + x ∧ d1 = (v[d] ^^^ a1).rotateRight 16 ∧ c1 = v[c] + d1 ∧ b1 = (v[b] ^^^ c1).rotateRight 12 ∧
      a2 = a1 + b1 + y ∧ d2 = (d1 ^^^ a2).rotateRight 8 ∧ c2 = c1 + d2 ∧ b2 = (b1 ^^^ c2).rotateRight 7 ∧
      (mix v a b c d x y)[a] = a2 ∧ (mix v a b c d x y)[b] = b2 ∧ (mix v a b c d x y)[c] = c2 ∧
      (mix v a b c d x y)[d] = d2 ∧
      ∀ i : Fin 16, i ∉ [a, b, c, d] → (mix v a b c d x y)[i] = v[i]

/-- R104: mixing steps on disjoint index sets can be done in either order. -/
def Obligations.DisjointMixStepsCommute : Prop :=
  ∀ (v : WorkVec) (a b c d e f g h : Fin 16) (x y z w : Word), [a, b, c, d, e, f, g, h].Nodup →
    mix (mix v a b c d x y) e f g h z w = mix (mix v e f g h z w) a b c d x y

/-- R100, R101, R103, R105: a round is the eight mixing steps of R103's table in order, columns before diagonals, step `j` with
the message words at positions `2j` and `2j + 1` of the round's row of the schedule as `x` and `y`; the working vector's layout,
seven rounds, and the exclusive-or of the halves. -/
def Obligations.CompressIsSevenRoundsOnTheLayout : Prop :=
  (∀ (v : WorkVec) (m : MsgBlock) (r : Fin 7), ∃ quads : Vector (Fin 16 × Fin 16 × Fin 16 × Fin 16) 8,
    quads = #v[(0, 4, 8, 12), (1, 5, 9, 13), (2, 6, 10, 14), (3, 7, 11, 15),
      (0, 5, 10, 15), (1, 6, 11, 12), (2, 7, 8, 13), (3, 4, 9, 14)] ∧
    roundStep v m r = (List.finRange 8).foldl (fun w j =>
      mix w quads[j].1 quads[j].2.1 quads[j].2.2.1 quads[j].2.2.2 m[sigma[r][2 * j.val]] m[sigma[r][2 * j.val + 1]]) v) ∧
  ∀ (h : Cv) (m : MsgBlock) (t : BitVec 64) (b : BitVec 7) (d : BitVec 4), ∃ v0 v7 : WorkVec,
    (∀ i (hi : i < 8), v0[i] = h[i]) ∧
    v0[8] = 0x6A09E667 ∧ v0[9] = 0xBB67AE85 ∧ v0[10] = 0x3C6EF372 ∧ v0[11] = 0xA54FF53A ∧
    v0[12].toNat = t.toNat % 2 ^ 32 ∧ v0[13].toNat = t.toNat / 2 ^ 32 ∧ v0[14].toNat = b.toNat ∧ v0[15].toNat = d.toNat ∧
    v7 = (List.finRange 7).foldl (fun v r => roundStep v m r) v0 ∧
    ∀ i (hi : i < 8), (compress h m t b d)[i] = v7[i] ^^^ v7[i + 8]

/-- R37: row 0 of the schedule is the identity and row 1 is as the table has it; every row is a permutation of the 16 message words, the seven rows are pairwise distinct, and row
`r + 1` is row `r` composed with row 1. -/
def Obligations.ScheduleRowsArePermutations : Prop :=
  sigma[0].toList = List.finRange 16 ∧ sigma[1] = #v[2, 6, 3, 10, 7, 0, 4, 13, 1, 11, 12, 5, 9, 14, 15, 8] ∧
  (∀ r : Fin 7, sigma[r].toList.Perm (List.finRange 16)) ∧ sigma.toList.Nodup ∧
  ∀ (r : Fin 6) (k : Fin 16), sigma[r.val + 1][k] = sigma[r.val][sigma[1][k]]

/-- R100's example (95_test_vectors.md V-C1): the compression of the empty input. -/
def Obligations.CompressOfTheEmptyInput : Prop :=
  compress iv (Vector.replicate 16 0) 0 0 0xB =
    #v[0xB94913AF, 0xA6A1F9F5, 0xEA4D40A0, 0x49C9DC36, 0xC925CB9B, 0xB712C1AD, 0xCA939ACC, 0x62321FE4]

/-- R106, R110 to R117: a core exposed on its own answers each of the eight forms with `COMPRESS` of its operands and the form's
`d`, reads no state, and writes nothing but its answer. -/
def Obligations.ExposedCoreAnswersEveryForm : Prop :=
  ∀ (a : CoreArgs) (s : State), a.b.toNat ≤ 64 →
    ∀ p ∈ ([(.chunkMid a, 0x0), (.chunkFirst a, 0x1), (.chunkLast a, 0x2), (.chunkOnly a, 0x3), (.chunkLastRoot a, 0xA),
        (.chunkOnlyRoot a, 0xB), (.parent a, 0x4), (.parentRoot a, 0xC)] : List (Instr × BitVec 4)),
      exec p.1 s = .next { s with coreOut := s.coreOut ++ [compress a.h a.m a.t a.b p.2] }

/-- R107, R217: a core exposed on its own refuses every form with `b > 64`. -/
def Obligations.ExposedCoreRefusesALongBlock : Prop :=
  ∀ (a : CoreArgs) (s : State), 64 < a.b.toNat →
    ∀ p ∈ ([(.chunkMid a, 0x0), (.chunkFirst a, 0x1), (.chunkLast a, 0x2), (.chunkOnly a, 0x3), (.chunkLastRoot a, 0xA),
        (.chunkOnlyRoot a, 0xB), (.parent a, 0x4), (.parentRoot a, 0xC)] : List (Instr × BitVec 4)),
      exec p.1 s = .refused (.corePrecond a.b p.2)

/-! ## The serialiser -/

/-- R51: message words are little-endian in the block's bytes. -/
def Obligations.LoadIsLittleEndian : Prop :=
  ∀ (B : Buffer) (i : Fin 16), (leLoad16 B)[i].toNat =
    (B[4 * i.val]).toNat + 2 ^ 8 * (B[4 * i.val + 1]).toNat + 2 ^ 16 * (B[4 * i.val + 2]).toNat +
      2 ^ 24 * (B[4 * i.val + 3]).toNat

/-- R122: load and store are inverse on their common part. -/
def Obligations.LoadAndStoreAreInverse : Prop :=
  (∀ (w : Cv) (B : Buffer), (∀ i, i < 64 → B[i]? = if i < 32 then (leStore8 w)[i]? else some 0) →
    ∀ i (hi : i < 8), (leLoad16 B)[i] = w[i]) ∧
  (∀ (w : Cv) (B : Buffer), (∀ i (hi : i < 8), w[i] = (leLoad16 B)[i]) →
    ∀ i (hi : i < 32), (leStore8 w)[i] = B[i])

/-! ## The merge stack -/

/-- R151, R152: on a stack that is not full a push stores a copy at index `sp` and only there, and a pop gives it back. -/
def Obligations.PopReturnsThePushedEntry : Prop :=
  ∀ (c : Cv) (s : State), s.sp.toNat < 64 →
    (msPush c s).sp.toNat = s.sp.toNat + 1 ∧ (msPush c s).stk[s.sp.toNat]? = some c ∧
    (∀ i, i ≠ s.sp.toNat → (msPush c s).stk[i]? = s.stk[i]?) ∧
    (msPop (msPush c s)).1 = c ∧ (msPop (msPush c s)).2 = { s with stk := (msPush c s).stk }

/-- R153: a parent compression's operands: `IV`, the left value's words then the right's, `t = 0`, `b = 64`, and `ROOT` added on
request. -/
def Obligations.ParentCompressionOperands : Prop :=
  ∀ (left right : Cv) (root : Bool), ∃ m : MsgBlock,
    (∀ i (hi : i < 8), m[i] = left[i] ∧ m[i + 8] = right[i]) ∧
    parentCv left right root = compress iv m 0 64 (if root then 0xC else 0x4)

/-- R154 to R157: a fold from the stack shape of counter `t - 1` gives the shape of counter `t`; it issues `ctz(t)` parent
compressions, none with `ROOT`, writes one entry, the new top, and changes nothing but the stack. -/
def Obligations.FoldKeepsTheStackShape : Prop :=
  ∀ (c : Cv) (t : BitVec 64) (s : State), t ≠ 0 → s.sp.toNat = popcount (t - 1) →
    ∃ f issued, f = msFold c t s ∧ f.sp.toNat = popcount t ∧ f.sp.toNat ≤ 64 ∧
      (∀ i, i ≠ popcount t - 1 → f.stk[i]? = s.stk[i]?) ∧
      f = { s with stk := f.stk, sp := f.sp, coreLog := s.coreLog ++ issued } ∧
      issued.length = ctz t ∧ ∀ r ∈ issued, r.d = 0x4

/-- R154: with the low bit of the counter set the fold is a push; with it clear, the fold joins the top entry, on the left, with
the value, and goes on with the counter shifted. -/
def Obligations.FoldMergesTheTopEntryFirst : Prop :=
  ∀ (c : Cv) (t : BitVec 64) (s : State),
    (t.getLsbD 0 = true → msFold c t s = msPush c s) ∧
    (t.getLsbD 0 = false → 0 < s.sp.toNat → s.sp.toNat ≤ 64 → ∃ left s',
      s.stk[s.sp.toNat - 1]? = some left ∧
      s' = { s with
        sp := s.sp - 1, coreLog := s.coreLog ++ [⟨⟨iv, left ++ c, 0, 64⟩, 0x4⟩] } ∧
      msFold c t s = msFold (compress iv (left ++ c) 0 64 0x4) (t >>> 1) s')

/-- R159, R161: an unwind empties the stack with one parent compression per entry, the last with `ROOT` and no other. -/
def Obligations.UnwindIssuesOneRootAtTheEnd : Prop :=
  ∀ (cand : Cv) (s : State), ∃ issued,
    (msUnwind cand s).2 = { s with sp := 0, coreLog := s.coreLog ++ issued } ∧
    issued.length = s.sp.toNat ∧
    (∀ i r, issued[i]? = some r → r.d = if i + 1 = s.sp.toNat then 0xC else 0x4)

/-- R155 to R157: a chunk completion, the one place that folds, is `ctz` of the new counter pops, then one push that finds `sp`
below 64, with the entries of the stack not yet written; and after every step that leaves the block accepting input, the stack
has as many entries as the counter has 1 bits, at most 64, and is full only at the counter's last value. -/
def Obligations.StackNeverOverflows : Prop :=
  (∀ s, s.sp.toNat = popcount s.chunkCtr → s.chunkCtr ≠ BitVec.allOnes 64 → ∃ cur u,
    completeChunk s = .ok { msPush cur u with cv := iv } ∧
    u = { s with chunkCtr := s.chunkCtr + 1, sp := u.sp, coreLog := u.coreLog } ∧
    u.sp.toNat + ctz (s.chunkCtr + 1) = s.sp.toNat ∧ u.sp.toNat < 64) ∧
  ∀ s t, RestInv s → step s = .next t → Ready t →
    t.sp.toNat = popcount t.chunkCtr ∧ t.sp.toNat ≤ 64 ∧ (t.sp.toNat = 64 → t.chunkCtr.toNat = 2 ^ 64 - 1)

/-! ## Laws of the stream -/

/-- R136: ingest of a sequence is the byte-serial form on its bytes in order. -/
def Obligations.IngestEqualsByteSerialForm : Prop :=
  ∀ (data : List Byte) (s : State), s.bufLen.toNat ≤ 64 → ingest data s = absorbAll data s

/-- R140: `UPDATE a ; UPDATE b` and `UPDATE (a ++ b)` end in the same context, or both fault with `F_COUNTER_OVERFLOW`. -/
def Obligations.IncrementalEquivalence : Prop :=
  ∀ (s : State) (a b : List Byte), s.fault = 0 → s.st ≠ .final → s.bufLen.toNat ≤ 64 →
    ∃ u v w, exec (.update a) s = .next u ∧ exec (.update b) u = .next v ∧ exec (.update (a ++ b)) s = .next w ∧
      ((v.fault = 0 ∧ w.fault = 0 ∧ SameContext v w) ∨ (v.fault = 4 ∧ w.fault = 4))

/-- R197: the response to `INIT ; UPDATE d1 ; ... ; UPDATE dk ; FINAL` depends only on the concatenation of the payloads, not on
where they are cut, nor on the state before; from a fresh context the leading `INIT` may be left out. -/
def Obligations.DigestIgnoresTheSplit : Prop :=
  ∀ data : List Byte, data.length ≤ 2 ^ 74 → ∃ D : List Byte, D.length = 32 ∧ ∀ ds : List (List Byte), ds.flatten = data →
    (∀ s, s.fault = 0 → ∃ t, runCommands (.init :: ds.map .update ++ [.final]) s = .next t ∧ t.respOut = s.respOut ++ D) ∧
    (∀ s, RestInv s → Ready s → total s = 0 →
      ∃ t, runCommands (ds.map .update ++ [.final]) s = .next t ∧ t.respOut = s.respOut ++ D)

/-- R85: `UPDATE.S k` of a non-empty byte string ends in the same context as one `UPDATE`. -/
def Obligations.SplitFeedingEqualsOneUpdate : Prop :=
  ∀ (s : State) (k : Nat) (data : List Byte), RestInv s → Ready s → 0 < k → data ≠ [] →
    total s + data.length ≤ 2 ^ 74 →
    ∃ v w, runCommands (Pseudo.expand (.updateS k data)) s = .next v ∧ exec (.update data) s = .next w ∧ SameContext v w

/-- R160, R182: the digest of any input is the tree of R160 over its chunks, whatever the state before `INIT`. -/
def Obligations.DigestIsTheChunkTree : Prop :=
  ∀ (s : State) (data : List Byte), s.fault = 0 → data.length ≤ 2 ^ 74 →
    ∃ t, runCommands [.init, .update data, .final] s = .next t ∧
      t.digest = treeDigest data ∧ t.respOut = s.respOut ++ (treeDigest data).toList

/-- R179: the empty input's digest, from any fresh context whatever its stale bytes. -/
def Obligations.EmptyInputDigest : Prop :=
  ∀ s, RestInv s → Ready s → total s = 0 → ∃ t, exec .final s = .next t ∧
    t.respOut = s.respOut ++
      [0xaf, 0x13, 0x49, 0xb9, 0xf5, 0xf9, 0xa1, 0xa6, 0xa0, 0x40, 0x4d, 0xea, 0x36, 0xdc, 0xc9, 0x49,
       0x9b, 0xcb, 0x25, 0xc9, 0xad, 0xc1, 0x12, 0xb7, 0xcc, 0x9a, 0x93, 0xca, 0xe4, 0x1f, 0x32, 0x62]

/-- R180: after 1024 bytes the position is the last block of chunk 0 and `FINAL` issues one request, with `ROOT` and no parent;
after 1025 it is the first byte of chunk 1 and `FINAL` issues two, of which exactly one is a parent and carries `ROOT`. -/
def Obligations.SingleChunkBoundary : Prop :=
  ∀ s, RestInv s → Ready s → ∃ t, exec .final s = .next t ∧
    (total s = 1024 → s.bufLen = 64 ∧ s.blkIdx = 15 ∧ s.chunkCtr = 0 ∧ s.sp = 0 ∧
      ∃ r, t.coreLog = s.coreLog ++ [r] ∧ r.args.t = 0 ∧ r.args.b = 64 ∧ r.d = 0xA) ∧
    (total s = 1025 → s.bufLen = 1 ∧ s.blkIdx = 0 ∧ s.chunkCtr = 1 ∧ s.sp = 1 ∧
      ∃ r p, t.coreLog = s.coreLog ++ [r, p] ∧ r.args.t = 1 ∧ r.args.b = 1 ∧ r.d = 0x3 ∧ p.d = 0xC)

/-- R181: `FINAL` issues one chunk-block compression and one parent per entry of the stack, which is one per 1 bit of the
counter, at most 65 in all. -/
def Obligations.FinalIssuesOneRequestPerEntry : Prop :=
  ∀ s, RestInv s → Ready s → ∃ t r parents, exec .final s = .next t ∧ t.coreLog = s.coreLog ++ r :: parents ∧
    hasParent r = false ∧ (∀ p ∈ parents, hasParent p = true) ∧ parents.length = s.sp.toNat ∧
    s.sp.toNat = popcount s.chunkCtr ∧ parents.length + 1 ≤ 65

/-! ## Invariants of every step -/

/-- R39, R40: the invariants hold right after reset. -/
def Obligations.ResetSatisfiesTheInvariants : Prop :=
  RestInv State.reset ∧ RequestInv State.reset ∧ WorkInv State.reset

/-- R40, R28: every step keeps the invariants at rest. -/
def Obligations.StepKeepsTheInvariants : Prop :=
  ∀ s t, RestInv s → step s = .next t → RestInv t

/-- R81, R107, R178: every request the block issues is one of the eight legal forms, and exactly one per hash carries `ROOT`, the
last one, issued by `FINAL`. -/
def Obligations.EveryRequestIsLegalWithOneRoot : Prop :=
  ∀ s t, RestInv s → RequestInv s → step s = .next t → RequestInv t

/-- R141: the compressions issued so far are those the position says. -/
def Obligations.WorkMatchesThePosition : Prop :=
  ∀ s t, RestInv s → WorkInv s → step s = .next t → WorkInv t

/-- R41, R177, R241: what no command can read has no effect on what the host sees, in any step. -/
def Obligations.HiddenStateIsUnobservable : Prop :=
  ∀ s u s', RestInv s → SameVisible s u → step s = .next s' → ∃ u', step u = .next u' ∧ SameVisible s' u'

/-- R106, log 2: a request served by the exposed core and a command of the block do not affect each other: served first or last,
the result is the same. -/
def Obligations.ExposedCoreIsIndependentOfTheBlock : Prop :=
  ∀ (s : State) (r : Request), s.resetReq = false → s.coreIn = [] → r.args.b.toNat ≤ 64 → (decodeRequest r).isSome = true →
    ∃ u v w, step (s.present r) = .next u ∧ step u = .next v ∧ step s = .next w ∧ step (w.present r) = .next v
end

