-- ==== Sys2Proof/Laws/Buffer.lean ====
section
/-! SUPPORT. The pending-block buffer: what a byte reads as after `writeBytes` and `padBuffer`. -/

namespace Sys2Proof.Machine

@[simp] theorem writeBytes_nil (buf : Buffer) (i : Nat) : writeBytes buf i [] = buf := rfl

/-- Byte `j` after the bytes of `data` were written at index `i` on. -/
theorem writeBytes_getElem? (buf : Buffer) (i : Nat) (data : List Byte) (j : Nat) (hj : j < 64) :
    (writeBytes buf i data)[j]? = if i ≤ j ∧ j < i + data.length then data[j - i]? else buf[j]? := by
  induction data generalizing buf i with
  | nil => simp
  | cons x xs ih =>
    rw [writeBytes, ih]
    by_cases h : j = i
    · subst h
      simp [hj]
    · have h1 : (buf.setIfInBounds i x)[j]? = buf[j]? := by
        rw [Vector.getElem?_setIfInBounds, if_neg (by omega)]
      rw [h1]
      by_cases h2 : i + 1 ≤ j ∧ j < i + 1 + xs.length
      · have h3 : i ≤ j ∧ j < i + (x :: xs).length := by simp; omega
        rw [if_pos h2, if_pos h3]
        have : j - i = (j - (i + 1)) + 1 := by omega
        rw [this, List.getElem?_cons_succ]
      · have h3 : ¬ (i ≤ j ∧ j < i + (x :: xs).length) := by simp; omega
        rw [if_neg h2, if_neg h3]

theorem writeBytes_append (buf : Buffer) (i : Nat) (a b : List Byte) :
    writeBytes buf i (a ++ b) = writeBytes (writeBytes buf i a) (i + a.length) b := by
  induction a generalizing buf i with
  | nil => rfl
  | cons x xs ih =>
    rw [List.cons_append, writeBytes, ih, writeBytes]
    congr 1
    simp; omega

/-- Byte `j` after padding from index `n` up (R171). -/
@[simp] theorem padBuffer_getElem (buf : Buffer) (n j : Nat) (hj : j < 64) :
    (padBuffer buf n)[j] = if j < n then buf[j] else 0 := by
  simp [padBuffer]

/-- Padding depends on the pending bytes only: the stale ones never reach the core (R171). -/
theorem padBuffer_congr (a b : Buffer) (n : Nat) (h : ∀ i : Nat, i < n → a[i]? = b[i]?) : padBuffer a n = padBuffer b n := by
  apply Vector.ext
  intro i hi
  rw [padBuffer_getElem, padBuffer_getElem]
  by_cases hn : i < n
  · have := h i hn
    simp only [hi, Vector.getElem?_eq_getElem, Option.some.injEq] at this
    simp [hn, this]
  · simp [hn]

end Sys2Proof.Machine
end

