-- ==== Sys2Proof/Laws/Bytes.lean ====
section
/-! SUPPORT. Little-endian byte sequences, words and blocks: what `leNat`, `leBytes`, `leWord`, `wordByte`, `leLoad16` and
`leStore8` give. -/

namespace Sys2Proof

@[simp] theorem leBytes_length (n v : Nat) : (leBytes n v).length = n := by
  induction n generalizing v with
  | zero => rfl
  | succ n ih => simp [leBytes, ih]

/-- Reading back what was written: `LEN` loses nothing below its width. -/
theorem leNat_leBytes (n v : Nat) : leNat (leBytes n v) = v % 2 ^ (8 * n) := by
  induction n generalizing v with
  | zero => simp [leBytes, leNat, Nat.mod_one]
  | succ n ih =>
    have h : 2 ^ (8 * (n + 1)) = 2 ^ 8 * 2 ^ (8 * n) := by rw [← Nat.pow_add]; ring_nf
    rw [leBytes, leNat, ih, h, Nat.mod_mul]
    simp

theorem leNat_lt (s : List Byte) : leNat s < 2 ^ (8 * s.length) := by
  induction s with
  | nil => simp [leNat]
  | cons x xs ih =>
    have h : 2 ^ (8 * (xs.length + 1)) = 2 ^ 8 * 2 ^ (8 * xs.length) := by rw [← Nat.pow_add]; ring_nf
    have := x.isLt
    simp only [leNat, List.length_cons, h]
    omega

/-- The other direction: a byte sequence is the encoding of its value. -/
theorem leBytes_leNat (s : List Byte) : leBytes s.length (leNat s) = s := by
  induction s with
  | nil => rfl
  | cons x xs ih =>
    have hx := x.isLt
    have h1 : BitVec.ofNat 8 (x.toNat + 2 ^ 8 * leNat xs) = x := by
      apply BitVec.eq_of_toNat_eq
      simp only [BitVec.toNat_ofNat]
      omega
    have h2 : (x.toNat + 2 ^ 8 * leNat xs) / 2 ^ 8 = leNat xs := by omega
    simp only [List.length_cons, leBytes, leNat, h1, h2, ih]

/-- The reserved field is the byte divided by 4 (R71). -/
theorem rsvdField_toNat (x : Byte) : (rsvdField x).toNat = x.toNat / 4 := by
  have := x.isLt
  simp [rsvdField, Nat.shiftRight_eq_div_pow]
  omega

theorem rsvdField_eq_zero_iff (x : Byte) : rsvdField x = 0 ↔ x.toNat < 4 := by
  rw [← BitVec.toNat_inj, rsvdField_toNat]
  simp

/-- The selector is the byte modulo 4 (R71). -/
theorem opField_toNat (x : Byte) : (opField x).toNat = x.toNat % 4 := by
  simp [opField]

namespace Machine

theorem leWord_toNat (x0 x1 x2 x3 : Byte) : (leWord x0 x1 x2 x3).toNat =
    x0.toNat + 2 ^ 8 * x1.toNat + 2 ^ 16 * x2.toNat + 2 ^ 24 * x3.toNat := by
  have h0 := x0.isLt
  have h1 := x1.isLt
  have h2 := x2.isLt
  simp only [leWord, BitVec.toNat_append]
  rw [← Nat.shiftLeft_add_eq_or_of_lt h2, ← Nat.shiftLeft_add_eq_or_of_lt h1, ← Nat.shiftLeft_add_eq_or_of_lt h0]
  simp only [Nat.shiftLeft_eq]
  ring

@[simp] theorem leLoad16_getElem (B : Buffer) (i : Nat) (hi : i < 16) : (leLoad16 B)[i] =
    leWord B[4 * i] B[4 * i + 1] B[4 * i + 2] B[4 * i + 3] := by
  simp [leLoad16]

@[simp] theorem leStore8_getElem (w : Cv) (i : Nat) (hi : i < 32) :
    (leStore8 w)[i] = wordByte w[i / 4] (i % 4) := by
  simp [leStore8]

/-- A word is the word of its four bytes. -/
theorem leWord_wordByte (w : Word) : leWord (wordByte w 0) (wordByte w 1) (wordByte w 2) (wordByte w 3) = w := by
  apply BitVec.eq_of_toNat_eq
  rw [leWord_toNat]
  have := w.isLt
  simp [wordByte, Nat.shiftRight_eq_div_pow]
  omega

theorem wordByte_leWord (x0 x1 x2 x3 : Byte) : wordByte (leWord x0 x1 x2 x3) 0 = x0 ∧ wordByte (leWord x0 x1 x2 x3) 1 = x1 ∧
    wordByte (leWord x0 x1 x2 x3) 2 = x2 ∧ wordByte (leWord x0 x1 x2 x3) 3 = x3 := by
  have h0 := x0.isLt
  have h1 := x1.isLt
  have h2 := x2.isLt
  have h3 := x3.isLt
  refine ⟨?_, ?_, ?_, ?_⟩ <;> apply BitVec.eq_of_toNat_eq <;>
    simp [wordByte, leWord_toNat, Nat.shiftRight_eq_div_pow] <;> omega

end Machine
end Sys2Proof
end

