-- ==== Sys2Proof/Laws/State.lean ====
section
/-! SUPPORT. For each named update of State, what every field holds after it, so that no proof unfolds a record update. -/

namespace Sys2Proof.Machine

/-! ### Fault entry (R219) -/

@[simp] theorem takeFault_st (f : Fault) (s : State) : (takeFault f s).st = s.st := rfl
@[simp] theorem takeFault_buf (f : Fault) (s : State) : (takeFault f s).buf = s.buf := rfl
@[simp] theorem takeFault_bufLen (f : Fault) (s : State) : (takeFault f s).bufLen = s.bufLen := rfl
@[simp] theorem takeFault_blkIdx (f : Fault) (s : State) : (takeFault f s).blkIdx = s.blkIdx := rfl
@[simp] theorem takeFault_chunkCtr (f : Fault) (s : State) : (takeFault f s).chunkCtr = s.chunkCtr := rfl
@[simp] theorem takeFault_cv (f : Fault) (s : State) : (takeFault f s).cv = s.cv := rfl
@[simp] theorem takeFault_digest (f : Fault) (s : State) : (takeFault f s).digest = s.digest := rfl
@[simp] theorem takeFault_fault (f : Fault) (s : State) : (takeFault f s).fault = f.code := rfl
@[simp] theorem takeFault_stk (f : Fault) (s : State) : (takeFault f s).stk = s.stk := rfl
@[simp] theorem takeFault_sp (f : Fault) (s : State) : (takeFault f s).sp = s.sp := rfl
@[simp] theorem takeFault_cmdIn (f : Fault) (s : State) : (takeFault f s).cmdIn = s.cmdIn := rfl
@[simp] theorem takeFault_respOut (f : Fault) (s : State) : (takeFault f s).respOut = s.respOut := rfl
@[simp] theorem takeFault_resetReq (f : Fault) (s : State) : (takeFault f s).resetReq = s.resetReq := rfl
@[simp] theorem takeFault_coreIn (f : Fault) (s : State) : (takeFault f s).coreIn = s.coreIn := rfl
@[simp] theorem takeFault_coreOut (f : Fault) (s : State) : (takeFault f s).coreOut = s.coreOut := rfl
@[simp] theorem takeFault_diag (f : Fault) (s : State) : (takeFault f s).diag = some f := rfl
@[simp] theorem takeFault_draws (f : Fault) (s : State) : (takeFault f s).draws = s.draws := rfl
@[simp] theorem takeFault_coreLog (f : Fault) (s : State) : (takeFault f s).coreLog = s.coreLog := rfl

/-! ### A spent context (R177) -/

@[simp] theorem spendContext_st (s : State) : (spendContext s).st = s.st := rfl
@[simp] theorem spendContext_buf (s : State) : (spendContext s).buf = Config.freeBuffer s.draws := rfl
@[simp] theorem spendContext_bufLen (s : State) : (spendContext s).bufLen = Config.freeBits 7 s.draws .bufLen 0 := rfl
@[simp] theorem spendContext_blkIdx (s : State) : (spendContext s).blkIdx = Config.freeBits 5 s.draws .blkIdx 0 := rfl
@[simp] theorem spendContext_chunkCtr (s : State) : (spendContext s).chunkCtr = Config.freeBits 64 s.draws .chunkCtr 0 := rfl
@[simp] theorem spendContext_cv (s : State) : (spendContext s).cv = Config.freeCv s.draws .cv 0 := rfl
@[simp] theorem spendContext_digest (s : State) : (spendContext s).digest = s.digest := rfl
@[simp] theorem spendContext_fault (s : State) : (spendContext s).fault = s.fault := rfl
@[simp] theorem spendContext_stk (s : State) : (spendContext s).stk = Config.freeStack s.draws := rfl
@[simp] theorem spendContext_sp (s : State) : (spendContext s).sp = Config.freeBits 7 s.draws .sp 0 := rfl
@[simp] theorem spendContext_cmdIn (s : State) : (spendContext s).cmdIn = s.cmdIn := rfl
@[simp] theorem spendContext_respOut (s : State) : (spendContext s).respOut = s.respOut := rfl
@[simp] theorem spendContext_resetReq (s : State) : (spendContext s).resetReq = s.resetReq := rfl
@[simp] theorem spendContext_coreIn (s : State) : (spendContext s).coreIn = s.coreIn := rfl
@[simp] theorem spendContext_coreOut (s : State) : (spendContext s).coreOut = s.coreOut := rfl
@[simp] theorem spendContext_diag (s : State) : (spendContext s).diag = s.diag := rfl
@[simp] theorem spendContext_draws (s : State) : (spendContext s).draws = s.draws + 1 := rfl
@[simp] theorem spendContext_coreLog (s : State) : (spendContext s).coreLog = s.coreLog := rfl

/-! ### Unspecified digest (R39) -/

@[simp] theorem freeTheDigest_st (s : State) : (freeTheDigest s).st = s.st := rfl
@[simp] theorem freeTheDigest_buf (s : State) : (freeTheDigest s).buf = s.buf := rfl
@[simp] theorem freeTheDigest_bufLen (s : State) : (freeTheDigest s).bufLen = s.bufLen := rfl
@[simp] theorem freeTheDigest_blkIdx (s : State) : (freeTheDigest s).blkIdx = s.blkIdx := rfl
@[simp] theorem freeTheDigest_chunkCtr (s : State) : (freeTheDigest s).chunkCtr = s.chunkCtr := rfl
@[simp] theorem freeTheDigest_cv (s : State) : (freeTheDigest s).cv = s.cv := rfl
@[simp] theorem freeTheDigest_digest (s : State) : (freeTheDigest s).digest = Config.freeDigest s.draws := rfl
@[simp] theorem freeTheDigest_fault (s : State) : (freeTheDigest s).fault = s.fault := rfl
@[simp] theorem freeTheDigest_stk (s : State) : (freeTheDigest s).stk = s.stk := rfl
@[simp] theorem freeTheDigest_sp (s : State) : (freeTheDigest s).sp = s.sp := rfl
@[simp] theorem freeTheDigest_cmdIn (s : State) : (freeTheDigest s).cmdIn = s.cmdIn := rfl
@[simp] theorem freeTheDigest_respOut (s : State) : (freeTheDigest s).respOut = s.respOut := rfl
@[simp] theorem freeTheDigest_resetReq (s : State) : (freeTheDigest s).resetReq = s.resetReq := rfl
@[simp] theorem freeTheDigest_coreIn (s : State) : (freeTheDigest s).coreIn = s.coreIn := rfl
@[simp] theorem freeTheDigest_coreOut (s : State) : (freeTheDigest s).coreOut = s.coreOut := rfl
@[simp] theorem freeTheDigest_diag (s : State) : (freeTheDigest s).diag = s.diag := rfl
@[simp] theorem freeTheDigest_draws (s : State) : (freeTheDigest s).draws = s.draws + 1 := rfl
@[simp] theorem freeTheDigest_coreLog (s : State) : (freeTheDigest s).coreLog = s.coreLog := rfl

/-! ### A fresh context (R191) -/

@[simp] theorem freshContext_st (s : State) : (freshContext s).st = .empty := rfl
@[simp] theorem freshContext_buf (s : State) : (freshContext s).buf = s.buf := rfl
@[simp] theorem freshContext_bufLen (s : State) : (freshContext s).bufLen = 0 := rfl
@[simp] theorem freshContext_blkIdx (s : State) : (freshContext s).blkIdx = 0 := rfl
@[simp] theorem freshContext_chunkCtr (s : State) : (freshContext s).chunkCtr = 0 := rfl
@[simp] theorem freshContext_cv (s : State) : (freshContext s).cv = iv := rfl
@[simp] theorem freshContext_digest (s : State) : (freshContext s).digest = Config.freeDigest s.draws := rfl
@[simp] theorem freshContext_fault (s : State) : (freshContext s).fault = s.fault := rfl
@[simp] theorem freshContext_stk (s : State) : (freshContext s).stk = s.stk := rfl
@[simp] theorem freshContext_sp (s : State) : (freshContext s).sp = 0 := rfl
@[simp] theorem freshContext_cmdIn (s : State) : (freshContext s).cmdIn = s.cmdIn := rfl
@[simp] theorem freshContext_respOut (s : State) : (freshContext s).respOut = s.respOut := rfl
@[simp] theorem freshContext_resetReq (s : State) : (freshContext s).resetReq = s.resetReq := rfl
@[simp] theorem freshContext_coreIn (s : State) : (freshContext s).coreIn = s.coreIn := rfl
@[simp] theorem freshContext_coreOut (s : State) : (freshContext s).coreOut = s.coreOut := rfl
@[simp] theorem freshContext_diag (s : State) : (freshContext s).diag = s.diag := rfl
@[simp] theorem freshContext_draws (s : State) : (freshContext s).draws = s.draws + 1 := rfl
@[simp] theorem freshContext_coreLog (s : State) : (freshContext s).coreLog = [] := rfl

/-! ### Hardware reset (R240) -/

@[simp] theorem hardReset_st (s : State) : (hardReset s).st = .empty := rfl
@[simp] theorem hardReset_buf (s : State) : (hardReset s).buf = Config.freeBuffer s.draws := rfl
@[simp] theorem hardReset_bufLen (s : State) : (hardReset s).bufLen = 0 := rfl
@[simp] theorem hardReset_blkIdx (s : State) : (hardReset s).blkIdx = 0 := rfl
@[simp] theorem hardReset_chunkCtr (s : State) : (hardReset s).chunkCtr = 0 := rfl
@[simp] theorem hardReset_cv (s : State) : (hardReset s).cv = iv := rfl
@[simp] theorem hardReset_digest (s : State) : (hardReset s).digest = Config.freeDigest s.draws := rfl
@[simp] theorem hardReset_fault (s : State) : (hardReset s).fault = 0 := rfl
@[simp] theorem hardReset_stk (s : State) : (hardReset s).stk = Config.freeStack s.draws := rfl
@[simp] theorem hardReset_sp (s : State) : (hardReset s).sp = 0 := rfl
@[simp] theorem hardReset_cmdIn (s : State) : (hardReset s).cmdIn = [] := rfl
@[simp] theorem hardReset_respOut (s : State) : (hardReset s).respOut = s.respOut := rfl
@[simp] theorem hardReset_resetReq (s : State) : (hardReset s).resetReq = false := rfl
@[simp] theorem hardReset_coreIn (s : State) : (hardReset s).coreIn = s.coreIn := rfl
@[simp] theorem hardReset_coreOut (s : State) : (hardReset s).coreOut = s.coreOut := rfl
@[simp] theorem hardReset_diag (s : State) : (hardReset s).diag = none := rfl
@[simp] theorem hardReset_draws (s : State) : (hardReset s).draws = s.draws + 1 := rfl
@[simp] theorem hardReset_coreLog (s : State) : (hardReset s).coreLog = [] := rfl

/-! ### Fault entry of `F_COUNTER_OVERFLOW` (R215) -/

@[simp] theorem takeOverflow_st (p : Phase) (s : State) : (takeOverflow p s).st = p := rfl
@[simp] theorem takeOverflow_buf (p : Phase) (s : State) : (takeOverflow p s).buf = Config.freeBuffer s.draws := rfl
@[simp] theorem takeOverflow_bufLen (p : Phase) (s : State) : (takeOverflow p s).bufLen = Config.freeBits 7 s.draws .bufLen 0 := rfl
@[simp] theorem takeOverflow_blkIdx (p : Phase) (s : State) : (takeOverflow p s).blkIdx = Config.freeBits 5 s.draws .blkIdx 0 := rfl
@[simp] theorem takeOverflow_chunkCtr (p : Phase) (s : State) : (takeOverflow p s).chunkCtr = Config.freeBits 64 s.draws .chunkCtr 0 := rfl
@[simp] theorem takeOverflow_cv (p : Phase) (s : State) : (takeOverflow p s).cv = Config.freeCv s.draws .cv 0 := rfl
@[simp] theorem takeOverflow_digest (p : Phase) (s : State) : (takeOverflow p s).digest = Config.freeDigest (s.draws + 1) := rfl
@[simp] theorem takeOverflow_fault (p : Phase) (s : State) : (takeOverflow p s).fault = 4 := rfl
@[simp] theorem takeOverflow_stk (p : Phase) (s : State) : (takeOverflow p s).stk = Config.freeStack s.draws := rfl
@[simp] theorem takeOverflow_sp (p : Phase) (s : State) : (takeOverflow p s).sp = Config.freeBits 7 s.draws .sp 0 := rfl
@[simp] theorem takeOverflow_cmdIn (p : Phase) (s : State) : (takeOverflow p s).cmdIn = s.cmdIn := rfl
@[simp] theorem takeOverflow_respOut (p : Phase) (s : State) : (takeOverflow p s).respOut = s.respOut := rfl
@[simp] theorem takeOverflow_resetReq (p : Phase) (s : State) : (takeOverflow p s).resetReq = s.resetReq := rfl
@[simp] theorem takeOverflow_coreIn (p : Phase) (s : State) : (takeOverflow p s).coreIn = s.coreIn := rfl
@[simp] theorem takeOverflow_coreOut (p : Phase) (s : State) : (takeOverflow p s).coreOut = s.coreOut := rfl
@[simp] theorem takeOverflow_diag (p : Phase) (s : State) : (takeOverflow p s).diag = some (.counterOverflow s.chunkCtr) := rfl
@[simp] theorem takeOverflow_draws (p : Phase) (s : State) : (takeOverflow p s).draws = s.draws + 2 := rfl
@[simp] theorem takeOverflow_coreLog (p : Phase) (s : State) : (takeOverflow p s).coreLog = s.coreLog := rfl

/-! ### A response (R76) -/

@[simp] theorem respondDigest_st (s : State) : (respondDigest s).st = s.st := rfl
@[simp] theorem respondDigest_buf (s : State) : (respondDigest s).buf = s.buf := rfl
@[simp] theorem respondDigest_bufLen (s : State) : (respondDigest s).bufLen = s.bufLen := rfl
@[simp] theorem respondDigest_blkIdx (s : State) : (respondDigest s).blkIdx = s.blkIdx := rfl
@[simp] theorem respondDigest_chunkCtr (s : State) : (respondDigest s).chunkCtr = s.chunkCtr := rfl
@[simp] theorem respondDigest_cv (s : State) : (respondDigest s).cv = s.cv := rfl
@[simp] theorem respondDigest_digest (s : State) : (respondDigest s).digest = s.digest := rfl
@[simp] theorem respondDigest_fault (s : State) : (respondDigest s).fault = s.fault := rfl
@[simp] theorem respondDigest_stk (s : State) : (respondDigest s).stk = s.stk := rfl
@[simp] theorem respondDigest_sp (s : State) : (respondDigest s).sp = s.sp := rfl
@[simp] theorem respondDigest_cmdIn (s : State) : (respondDigest s).cmdIn = s.cmdIn := rfl
@[simp] theorem respondDigest_respOut (s : State) : (respondDigest s).respOut = s.respOut ++ s.digest.toList := rfl
@[simp] theorem respondDigest_resetReq (s : State) : (respondDigest s).resetReq = s.resetReq := rfl
@[simp] theorem respondDigest_coreIn (s : State) : (respondDigest s).coreIn = s.coreIn := rfl
@[simp] theorem respondDigest_coreOut (s : State) : (respondDigest s).coreOut = s.coreOut := rfl
@[simp] theorem respondDigest_diag (s : State) : (respondDigest s).diag = s.diag := rfl
@[simp] theorem respondDigest_draws (s : State) : (respondDigest s).draws = s.draws := rfl
@[simp] theorem respondDigest_coreLog (s : State) : (respondDigest s).coreLog = s.coreLog := rfl

/-! ### A request to the block's core (R118) -/

@[simp] theorem issue_st (r : Request) (s : State) : (issue r s).st = s.st := rfl
@[simp] theorem issue_buf (r : Request) (s : State) : (issue r s).buf = s.buf := rfl
@[simp] theorem issue_bufLen (r : Request) (s : State) : (issue r s).bufLen = s.bufLen := rfl
@[simp] theorem issue_blkIdx (r : Request) (s : State) : (issue r s).blkIdx = s.blkIdx := rfl
@[simp] theorem issue_chunkCtr (r : Request) (s : State) : (issue r s).chunkCtr = s.chunkCtr := rfl
@[simp] theorem issue_cv (r : Request) (s : State) : (issue r s).cv = s.cv := rfl
@[simp] theorem issue_digest (r : Request) (s : State) : (issue r s).digest = s.digest := rfl
@[simp] theorem issue_fault (r : Request) (s : State) : (issue r s).fault = s.fault := rfl
@[simp] theorem issue_stk (r : Request) (s : State) : (issue r s).stk = s.stk := rfl
@[simp] theorem issue_sp (r : Request) (s : State) : (issue r s).sp = s.sp := rfl
@[simp] theorem issue_cmdIn (r : Request) (s : State) : (issue r s).cmdIn = s.cmdIn := rfl
@[simp] theorem issue_respOut (r : Request) (s : State) : (issue r s).respOut = s.respOut := rfl
@[simp] theorem issue_resetReq (r : Request) (s : State) : (issue r s).resetReq = s.resetReq := rfl
@[simp] theorem issue_coreIn (r : Request) (s : State) : (issue r s).coreIn = s.coreIn := rfl
@[simp] theorem issue_coreOut (r : Request) (s : State) : (issue r s).coreOut = s.coreOut := rfl
@[simp] theorem issue_diag (r : Request) (s : State) : (issue r s).diag = s.diag := rfl
@[simp] theorem issue_draws (r : Request) (s : State) : (issue r s).draws = s.draws := rfl
@[simp] theorem issue_coreLog (r : Request) (s : State) : (issue r s).coreLog = s.coreLog ++ [r] := rfl

/-! ### `MS_PUSH` (R151) -/

@[simp] theorem msPush_st (c : Cv) (s : State) : (msPush c s).st = s.st := rfl
@[simp] theorem msPush_buf (c : Cv) (s : State) : (msPush c s).buf = s.buf := rfl
@[simp] theorem msPush_bufLen (c : Cv) (s : State) : (msPush c s).bufLen = s.bufLen := rfl
@[simp] theorem msPush_blkIdx (c : Cv) (s : State) : (msPush c s).blkIdx = s.blkIdx := rfl
@[simp] theorem msPush_chunkCtr (c : Cv) (s : State) : (msPush c s).chunkCtr = s.chunkCtr := rfl
@[simp] theorem msPush_cv (c : Cv) (s : State) : (msPush c s).cv = s.cv := rfl
@[simp] theorem msPush_digest (c : Cv) (s : State) : (msPush c s).digest = s.digest := rfl
@[simp] theorem msPush_fault (c : Cv) (s : State) : (msPush c s).fault = s.fault := rfl
@[simp] theorem msPush_stk (c : Cv) (s : State) : (msPush c s).stk = s.stk.setIfInBounds s.sp.toNat c := rfl
@[simp] theorem msPush_sp (c : Cv) (s : State) : (msPush c s).sp = s.sp + 1 := rfl
@[simp] theorem msPush_cmdIn (c : Cv) (s : State) : (msPush c s).cmdIn = s.cmdIn := rfl
@[simp] theorem msPush_respOut (c : Cv) (s : State) : (msPush c s).respOut = s.respOut := rfl
@[simp] theorem msPush_resetReq (c : Cv) (s : State) : (msPush c s).resetReq = s.resetReq := rfl
@[simp] theorem msPush_coreIn (c : Cv) (s : State) : (msPush c s).coreIn = s.coreIn := rfl
@[simp] theorem msPush_coreOut (c : Cv) (s : State) : (msPush c s).coreOut = s.coreOut := rfl
@[simp] theorem msPush_diag (c : Cv) (s : State) : (msPush c s).diag = s.diag := rfl
@[simp] theorem msPush_draws (c : Cv) (s : State) : (msPush c s).draws = s.draws := rfl
@[simp] theorem msPush_coreLog (c : Cv) (s : State) : (msPush c s).coreLog = s.coreLog := rfl

/-! ### `MS_POP` (R152) -/

@[simp] theorem msPop_st (s : State) : (msPop s).2.st = s.st := rfl
@[simp] theorem msPop_buf (s : State) : (msPop s).2.buf = s.buf := rfl
@[simp] theorem msPop_bufLen (s : State) : (msPop s).2.bufLen = s.bufLen := rfl
@[simp] theorem msPop_blkIdx (s : State) : (msPop s).2.blkIdx = s.blkIdx := rfl
@[simp] theorem msPop_chunkCtr (s : State) : (msPop s).2.chunkCtr = s.chunkCtr := rfl
@[simp] theorem msPop_cv (s : State) : (msPop s).2.cv = s.cv := rfl
@[simp] theorem msPop_digest (s : State) : (msPop s).2.digest = s.digest := rfl
@[simp] theorem msPop_fault (s : State) : (msPop s).2.fault = s.fault := rfl
@[simp] theorem msPop_stk (s : State) : (msPop s).2.stk = s.stk := rfl
@[simp] theorem msPop_sp (s : State) : (msPop s).2.sp = s.sp - 1 := rfl
@[simp] theorem msPop_cmdIn (s : State) : (msPop s).2.cmdIn = s.cmdIn := rfl
@[simp] theorem msPop_respOut (s : State) : (msPop s).2.respOut = s.respOut := rfl
@[simp] theorem msPop_resetReq (s : State) : (msPop s).2.resetReq = s.resetReq := rfl
@[simp] theorem msPop_coreIn (s : State) : (msPop s).2.coreIn = s.coreIn := rfl
@[simp] theorem msPop_coreOut (s : State) : (msPop s).2.coreOut = s.coreOut := rfl
@[simp] theorem msPop_diag (s : State) : (msPop s).2.diag = s.diag := rfl
@[simp] theorem msPop_draws (s : State) : (msPop s).2.draws = s.draws := rfl
@[simp] theorem msPop_coreLog (s : State) : (msPop s).2.coreLog = s.coreLog := rfl

/-! ### A block compression (R133) -/

@[simp] theorem compressBlock_st (s : State) : (compressBlock s).st = s.st := rfl
@[simp] theorem compressBlock_buf (s : State) : (compressBlock s).buf = s.buf := rfl
@[simp] theorem compressBlock_bufLen (s : State) : (compressBlock s).bufLen = s.bufLen := rfl
@[simp] theorem compressBlock_blkIdx (s : State) : (compressBlock s).blkIdx = s.blkIdx + 1 := rfl
@[simp] theorem compressBlock_chunkCtr (s : State) : (compressBlock s).chunkCtr = s.chunkCtr := rfl
@[simp] theorem compressBlock_cv (s : State) : (compressBlock s).cv = coreAnswer (blockRequest s) := rfl
@[simp] theorem compressBlock_digest (s : State) : (compressBlock s).digest = s.digest := rfl
@[simp] theorem compressBlock_fault (s : State) : (compressBlock s).fault = s.fault := rfl
@[simp] theorem compressBlock_stk (s : State) : (compressBlock s).stk = s.stk := rfl
@[simp] theorem compressBlock_sp (s : State) : (compressBlock s).sp = s.sp := rfl
@[simp] theorem compressBlock_cmdIn (s : State) : (compressBlock s).cmdIn = s.cmdIn := rfl
@[simp] theorem compressBlock_respOut (s : State) : (compressBlock s).respOut = s.respOut := rfl
@[simp] theorem compressBlock_resetReq (s : State) : (compressBlock s).resetReq = s.resetReq := rfl
@[simp] theorem compressBlock_coreIn (s : State) : (compressBlock s).coreIn = s.coreIn := rfl
@[simp] theorem compressBlock_coreOut (s : State) : (compressBlock s).coreOut = s.coreOut := rfl
@[simp] theorem compressBlock_diag (s : State) : (compressBlock s).diag = s.diag := rfl
@[simp] theorem compressBlock_draws (s : State) : (compressBlock s).draws = s.draws := rfl
@[simp] theorem compressBlock_coreLog (s : State) : (compressBlock s).coreLog = s.coreLog ++ [blockRequest s] := rfl

/-! ### The leftover bytes (R135) -/

@[simp] theorem storeTail_st (data : List Byte) (s : State) : (storeTail data s).st = s.st := rfl
@[simp] theorem storeTail_buf (data : List Byte) (s : State) : (storeTail data s).buf = writeBytes s.buf s.bufLen.toNat data := rfl
@[simp] theorem storeTail_bufLen (data : List Byte) (s : State) : (storeTail data s).bufLen = s.bufLen + BitVec.ofNat 7 data.length := rfl
@[simp] theorem storeTail_blkIdx (data : List Byte) (s : State) : (storeTail data s).blkIdx = s.blkIdx := rfl
@[simp] theorem storeTail_chunkCtr (data : List Byte) (s : State) : (storeTail data s).chunkCtr = s.chunkCtr := rfl
@[simp] theorem storeTail_cv (data : List Byte) (s : State) : (storeTail data s).cv = s.cv := rfl
@[simp] theorem storeTail_digest (data : List Byte) (s : State) : (storeTail data s).digest = s.digest := rfl
@[simp] theorem storeTail_fault (data : List Byte) (s : State) : (storeTail data s).fault = s.fault := rfl
@[simp] theorem storeTail_stk (data : List Byte) (s : State) : (storeTail data s).stk = s.stk := rfl
@[simp] theorem storeTail_sp (data : List Byte) (s : State) : (storeTail data s).sp = s.sp := rfl
@[simp] theorem storeTail_cmdIn (data : List Byte) (s : State) : (storeTail data s).cmdIn = s.cmdIn := rfl
@[simp] theorem storeTail_respOut (data : List Byte) (s : State) : (storeTail data s).respOut = s.respOut := rfl
@[simp] theorem storeTail_resetReq (data : List Byte) (s : State) : (storeTail data s).resetReq = s.resetReq := rfl
@[simp] theorem storeTail_coreIn (data : List Byte) (s : State) : (storeTail data s).coreIn = s.coreIn := rfl
@[simp] theorem storeTail_coreOut (data : List Byte) (s : State) : (storeTail data s).coreOut = s.coreOut := rfl
@[simp] theorem storeTail_diag (data : List Byte) (s : State) : (storeTail data s).diag = s.diag := rfl
@[simp] theorem storeTail_draws (data : List Byte) (s : State) : (storeTail data s).draws = s.draws := rfl
@[simp] theorem storeTail_coreLog (data : List Byte) (s : State) : (storeTail data s).coreLog = s.coreLog := rfl

end Sys2Proof.Machine
end

