-- ==== Sys2Proof/Laws/Gate.lean ====
section
/-! SUPPORT. The fault gate (45_host_commands.md R196), and each command past it and stopped by it. -/

namespace Sys2Proof.Machine

theorem gate_open (s : State) (run : State → Answer) (h : s.fault = 0) : gate s run = run s := by
  simp [gate, h]

theorem gate_shut (s : State) (run : State → Answer) (h : s.fault ≠ 0) : gate s run = .next s := by
  rw [gate, if_pos h]

theorem exec_init (s : State) (h : s.fault = 0) : exec .init s = .next (freshContext s) := by
  rw [exec, execInit, gate_open s _ h]

theorem exec_update_final (s : State) (data : List Byte) (h : s.fault = 0) (hf : s.st = .final) :
    exec (.update data) s = .next (takeFault (.updateAfterFinal .final) s) := by
  rw [exec, execUpdate, gate_open s _ h, if_pos hf, hf]

theorem exec_update_ok (s t : State) (data : List Byte) (h : s.fault = 0) (hf : s.st ≠ .final)
    (hi : ingest data { s with st := .accum } = .ok t) : exec (.update data) s = .next t := by
  rw [exec, execUpdate, gate_open s _ h, if_neg hf, hi]

theorem exec_update_error (s t : State) (data : List Byte) (h : s.fault = 0) (hf : s.st ≠ .final)
    (hi : ingest data { s with st := .accum } = .error t) : exec (.update data) s = .next (takeOverflow s.st t) := by
  rw [exec, execUpdate, gate_open s _ h, if_neg hf, hi]

theorem exec_final (s : State) (h : s.fault = 0) (hf : s.st ≠ .final) :
    exec .final s = .next (spendContext (respondDigest { finalize s with st := .final })) := by
  rw [exec, execFinal, gate_open s _ h, if_neg hf]

theorem exec_final_final (s : State) (h : s.fault = 0) (hf : s.st = .final) :
    exec .final s = .next (takeFault (.finalAfterFinal .final) s) := by
  rw [exec, execFinal, gate_open s _ h, if_pos hf, hf]

theorem exec_rddig (s : State) (h : s.fault = 0) (hf : s.st = .final) :
    exec .rddig s = .next (respondDigest s) := by
  rw [exec, execRddig, gate_open s _ h, if_neg (not_not_intro hf)]

theorem exec_rddig_early (s : State) (h : s.fault = 0) (hf : s.st ≠ .final) :
    exec .rddig s = .next (takeFault (.digestBeforeFinal s.st) s) := by
  rw [exec, execRddig, gate_open s _ h, if_pos hf]

/-- A faulted block drops every command (R196, R219). -/
theorem exec_shut (s : State) (i : Instr) (bytes : List Byte) (h : s.fault ≠ 0) (hi : encode i = .stream bytes) :
    exec i s = .next s := by
  cases i with
  | init => rw [exec, execInit, gate_shut s _ h]
  | update data => rw [exec, execUpdate, gate_shut s _ h]
  | final => rw [exec, execFinal, gate_shut s _ h]
  | rddig => rw [exec, execRddig, gate_shut s _ h]
  | _ => simp [encode] at hi

/-- What a core exposed on its own answers within its precondition (R106, R107). -/
theorem serveRequest_legal (d : BitVec 4) (a : CoreArgs) (s : State) (h : a.b.toNat ≤ 64) :
    serveRequest d a s = .next { s with coreOut := s.coreOut ++ [coreAnswer ⟨a, d⟩] } := by
  rw [serveRequest, if_pos h]

theorem serveRequest_illegal (d : BitVec 4) (a : CoreArgs) (s : State) (h : 64 < a.b.toNat) :
    serveRequest d a s = .refused (.corePrecond a.b d) := by
  rw [serveRequest, if_neg (by omega)]

/-- Executing a decoded core request: the answer, or the refusal of `b > 64`. -/
theorem exec_request (r : Request) (i : Instr) (s : State) (h : decodeRequest r = some i) :
    exec i s = serveRequest r.d r.args s := by
  obtain ⟨a, d⟩ := r
  have hd : ∀ k : Nat, d.toNat = k → d = BitVec.ofNat 4 k := by
    rintro k rfl
    simp
  simp only [decodeRequest] at h
  split at h <;> first | contradiction | skip
  all_goals
    obtain rfl := hd _ ‹_›
    cases h
    rfl

end Sys2Proof.Machine
end

