-- ==== Sys2Proof/Laws/MergeStack.lean ====
section
/-! SUPPORT. What the merge unit's loops can do (43_merge_stack.md R154, R158): the fold changes `stk`, `sp` and the request
log only, the unwind `sp` and the log only, and every request is a parent compression. -/

namespace Sys2Proof.Machine

theorem sp_pred_toNat (x : BitVec 7) (h : x ≠ 0) : (x - 1).toNat = x.toNat - 1 := by
  have h0 : x.toNat ≠ 0 := fun e => h (BitVec.eq_of_toNat_eq (by simpa using e))
  have := x.isLt
  rw [BitVec.toNat_sub]
  simp
  omega

theorem sp_succ_toNat (x : BitVec 7) (h : x.toNat ≤ 64) : (x + 1).toNat = x.toNat + 1 := by
  rw [BitVec.toNat_add]
  simp
  omega

/-- A pop gives the entry below `sp` (R152). -/
theorem msPop_fst (s : State) (h0 : s.sp ≠ 0) (h64 : s.sp.toNat ≤ 64) :
    some (msPop s).1 = s.stk[s.sp.toNat - 1]? := by
  have h0' : s.sp.toNat ≠ 0 := fun e => h0 (BitVec.eq_of_toNat_eq (by simpa using e))
  have hi : s.sp.toNat - 1 < 64 := by omega
  simp only [msPop, sp_pred_toNat _ h0, Vector.getElem?_eq_getElem hi, Option.getD_some]

/-- One pass of the fold's loop as a fold from the state after the merge (R154). -/
theorem msFold_merge (cur : Cv) (u : BitVec 64) (s : State) (hu : u.getLsbD 0 = false) (h0 : s.sp ≠ 0) :
    msFold cur u s = msFold (parentCv (msPop s).1 cur false) (u >>> 1)
      (issue (parentRequest (msPop s).1 cur false) (msPop s).2) := by
  obtain ⟨n, hn⟩ : ∃ n, s.sp.toNat = n + 1 :=
    ⟨s.sp.toNat - 1, by have : s.sp.toNat ≠ 0 := fun e => h0 (BitVec.eq_of_toNat_eq (by simpa using e)); omega⟩
  have hp : (msPop s).2.sp.toNat = n := by rw [msPop_sp, sp_pred_toNat _ h0, hn]; rfl
  rw [msFold, hn, msFoldLoop, if_pos ⟨hu, h0⟩, msFold, issue_sp, hp]

/-- The end of the fold's loop is a push (R154). -/
theorem msFold_push (cur : Cv) (u : BitVec 64) (s : State) (h : u.getLsbD 0 = true ∨ s.sp = 0) :
    msFold cur u s = msPush cur s := by
  rw [msFold]
  cases hn : s.sp.toNat with
  | zero => rfl
  | succ n => rw [msFoldLoop, if_neg (by rintro ⟨h1, h2⟩; rcases h with h | h <;> simp_all)]

/-- One step of the unwind (R158). -/
theorem msUnwind_step (cand : Cv) (s : State) (h0 : s.sp ≠ 0) : msUnwind cand s =
    msUnwind (parentCv (msPop s).1 cand (decide ((msPop s).2.sp = 0)))
      (issue (parentRequest (msPop s).1 cand (decide ((msPop s).2.sp = 0))) (msPop s).2) := by
  obtain ⟨n, hn⟩ : ∃ n, s.sp.toNat = n + 1 :=
    ⟨s.sp.toNat - 1, by have : s.sp.toNat ≠ 0 := fun e => h0 (BitVec.eq_of_toNat_eq (by simpa using e)); omega⟩
  have hp : (msPop s).2.sp.toNat = n := by rw [msPop_sp, sp_pred_toNat _ h0, hn]; rfl
  rw [msUnwind, hn, msUnwindLoop, if_pos h0, msUnwind, issue_sp, hp]

/-- The end of the unwind (R158). -/
theorem msUnwind_stop (cand : Cv) (s : State) (h : s.sp = 0) : msUnwind cand s = (cand, s) := by
  rw [msUnwind, h]
  rfl

/-- A request of a fold or of an unwind step but the last (R116). -/
def IsParent (r : Request) : Prop := ∃ left right, r = parentRequest left right false

theorem msFoldLoop_frame (fuel : Nat) (cur : Cv) (u : BitVec 64) (s : State) : ∃ stk sp issued,
    msFoldLoop fuel cur u s = { s with stk := stk, sp := sp, coreLog := s.coreLog ++ issued } ∧
    ∀ r ∈ issued, IsParent r := by
  induction fuel generalizing cur u s with
  | zero => exact ⟨(msPush cur s).stk, (msPush cur s).sp, [], by simp [msFoldLoop, msPush], by simp⟩
  | succ fuel ih =>
    rw [msFoldLoop]
    split
    · obtain ⟨stk, sp, issued, h, hp⟩ := ih (parentCv (msPop s).1 cur false) (u >>> 1)
        (issue (parentRequest (msPop s).1 cur false) (msPop s).2)
      refine ⟨stk, sp, parentRequest (msPop s).1 cur false :: issued, ?_, ?_⟩
      · simp only [h]; simp [issue, msPop]
      · intro r hr
        rcases List.mem_cons.mp hr with rfl | hr
        · exact ⟨_, _, rfl⟩
        · exact hp r hr
    · exact ⟨(msPush cur s).stk, (msPush cur s).sp, [], by simp [msPush], by simp⟩

theorem msFold_frame (cur : Cv) (u : BitVec 64) (s : State) : ∃ stk sp issued,
    msFold cur u s = { s with stk := stk, sp := sp, coreLog := s.coreLog ++ issued } ∧ ∀ r ∈ issued, IsParent r :=
  msFoldLoop_frame _ cur u s

/-- A fold is pops, which write no entry, and then one push, onto a stack no higher than before (R154, R155). -/
theorem msFoldLoop_ends_in_push (fuel : Nat) (cur : Cv) (u : BitVec 64) (s : State) : ∃ top s',
    msFoldLoop fuel cur u s = msPush top s' ∧ s' = { s with sp := s'.sp, coreLog := s'.coreLog } ∧
    s'.sp.toNat ≤ s.sp.toNat := by
  induction fuel generalizing cur u s with
  | zero => exact ⟨cur, s, rfl, rfl, Nat.le_refl _⟩
  | succ fuel ih =>
    rw [msFoldLoop]
    split
    · rename_i hm
      obtain ⟨top, s', h, hs, hle⟩ := ih (parentCv (msPop s).1 cur false) (u >>> 1)
        (issue (parentRequest (msPop s).1 cur false) (msPop s).2)
      refine ⟨top, s', h, by rw [hs]; simp [issue, msPop], ?_⟩
      rw [issue_sp, msPop_sp, sp_pred_toNat _ hm.2] at hle
      omega
    · exact ⟨cur, s, rfl, rfl, Nat.le_refl _⟩

theorem msFold_ends_in_push (cur : Cv) (u : BitVec 64) (s : State) : ∃ top s',
    msFold cur u s = msPush top s' ∧ s' = { s with sp := s'.sp, coreLog := s'.coreLog } ∧ s'.sp.toNat ≤ s.sp.toNat :=
  msFoldLoop_ends_in_push _ cur u s

theorem msUnwindLoop_frame (fuel : Nat) (cand : Cv) (s : State) : ∃ sp issued,
    (msUnwindLoop fuel cand s).2 = { s with sp := sp, coreLog := s.coreLog ++ issued } ∧
    ∀ r ∈ issued, ∃ left right root, r = parentRequest left right root := by
  induction fuel generalizing cand s with
  | zero => exact ⟨s.sp, [], by simp [msUnwindLoop], by simp⟩
  | succ fuel ih =>
    rw [msUnwindLoop]
    split
    · obtain ⟨sp, issued, h, hp⟩ := ih (parentCv (msPop s).1 cand (decide ((msPop s).2.sp = 0)))
        (issue (parentRequest (msPop s).1 cand (decide ((msPop s).2.sp = 0))) (msPop s).2)
      refine ⟨sp, parentRequest (msPop s).1 cand (decide ((msPop s).2.sp = 0)) :: issued, ?_, ?_⟩
      · simp only [h]; simp [issue, msPop]
      · intro r hr
        rcases List.mem_cons.mp hr with rfl | hr
        · exact ⟨_, _, _, rfl⟩
        · exact hp r hr
    · exact ⟨s.sp, [], by simp, by simp⟩

theorem msUnwind_frame (cand : Cv) (s : State) : ∃ sp issued,
    (msUnwind cand s).2 = { s with sp := sp, coreLog := s.coreLog ++ issued } ∧
    ∀ r ∈ issued, ∃ left right root, r = parentRequest left right root := msUnwindLoop_frame _ cand s

/-- The fold reads and writes the stack alone: states with the same stack, and the same draw counter, fold to the same stack. -/
theorem msFoldLoop_congr (fuel : Nat) (cur : Cv) (u : BitVec 64) (s s' : State) (h1 : s.stk = s'.stk) (h2 : s.sp = s'.sp)
    (h3 : s.draws = s'.draws) : (msFoldLoop fuel cur u s).stk = (msFoldLoop fuel cur u s').stk ∧
      (msFoldLoop fuel cur u s).sp = (msFoldLoop fuel cur u s').sp := by
  induction fuel generalizing cur u s s' with
  | zero => simp [msFoldLoop, h1, h2]
  | succ fuel ih =>
    have e : (msPop s).1 = (msPop s').1 := by simp [msPop, h1, h2, h3]
    rw [msFoldLoop, msFoldLoop, h2]
    split
    · dsimp only; rw [e]; exact ih _ _ _ _ (by simpa using h1) (by simp [h2]) (by simpa using h3)
    · simp [h1, h2]

end Sys2Proof.Machine
end

