-- ==== Sys2Proof/Laws/Finalizer.lean ====
section
/-! SUPPORT. What `FINAL` can do (44_finalizer.md R170 to R177), said once. -/

namespace Sys2Proof.Machine

/-- The buffer after the padding of `FINALIZE` (R171). -/
def padded (s : State) : State := { s with buf := padBuffer s.buf s.bufLen.toNat }

/-- `FINALIZE` by its parts (R174 to R176). -/
theorem finalize_eq (s : State) : finalize s =
    { (msUnwind (coreAnswer (finalRequest (padded s))) (issue (finalRequest (padded s)) (padded s))).2 with
      digest := leStore8
        (msUnwind (coreAnswer (finalRequest (padded s))) (issue (finalRequest (padded s)) (padded s))).1 } := rfl

/-- What `FINALIZE` can change: the buffer, `sp`, the digest and the request log (R170, R177). -/
theorem finalize_frame (s : State) : ∃ sp digest issued,
    finalize s = { s with
      buf := padBuffer s.buf s.bufLen.toNat, sp := sp, digest := digest, coreLog := s.coreLog ++ issued } := by
  obtain ⟨sp, issued, h, -⟩ :=
    msUnwind_frame (coreAnswer (finalRequest (padded s))) (issue (finalRequest (padded s)) (padded s))
  refine ⟨sp, (finalize s).digest, finalRequest (padded s) :: issued, ?_⟩
  rw [finalize_eq, h]
  simp [issue, padded]

/-- The flags of the last chunk compression, as the table of R173. -/
theorem finalFlags_table (blkIdx : BitVec 5) (sp : BitVec 7) : finalFlags blkIdx sp =
    (if blkIdx = 0 then (if sp = 0 then 0xB else 0x3) else (if sp = 0 then 0xA else 0x2)) := by
  simp only [finalFlags, chunkStart, chunkEnd, rootFlag]
  split <;> split <;> rfl

/-- What the command `FINAL` leaves outside the spent context (R177, R193). -/
theorem exec_final_frame (s : State) (h : s.fault = 0) (hs : s.st ≠ .final) : ∃ t, exec .final s = .next t ∧
    t.st = .final ∧ t.fault = 0 ∧ t.diag = s.diag ∧ t.cmdIn = s.cmdIn ∧ t.resetReq = s.resetReq ∧ t.coreIn = s.coreIn ∧
    t.coreOut = s.coreOut ∧ t.digest = (finalize s).digest ∧ t.respOut = s.respOut ++ (finalize s).digest.toList ∧
    t.coreLog = (finalize s).coreLog := by
  obtain ⟨sp, digest, issued, hf⟩ := finalize_frame s
  refine ⟨_, exec_final s h hs, rfl, ?_⟩
  rw [hf]
  simpa using h

end Sys2Proof.Machine
end

