-- ==== Sys2Proof/Laws/Ingest.lean ====
section
/-! SUPPORT. What the operations of `UPDATE` can do (42_context_ingest.md R130 to R142), each said once. -/

namespace Sys2Proof.Machine

/-- The state before a chunk completion's fold: the counter incremented, the block index back at 0 (R134). -/
def beforeFold (s : State) : State :=
  { compressBlock s with blkIdx := 0, chunkCtr := s.chunkCtr + 1 }

/-- What a block step answers: a plain block; a completed chunk; or the overflow, at block index 15 only (R133, R134, R139). -/
theorem blockStep_cases (s : State) :
    (s.blkIdx ≠ 15 ∧ blockStep s = .ok (compressBlock s)) ∨
    (s.blkIdx = 15 ∧ s.chunkCtr ≠ BitVec.allOnes 64 ∧ blockStep s = .ok
      { msFold (coreAnswer (blockRequest s)) (s.chunkCtr + 1) (beforeFold s) with cv := iv }) ∨
    (s.blkIdx = 15 ∧ s.chunkCtr = BitVec.allOnes 64 ∧
      blockStep s = .error { compressBlock s with blkIdx := 0 }) := by
  have h15 : s.blkIdx + 1 = 16 ↔ s.blkIdx = 15 := by
    constructor
    · intro h
      have : s.blkIdx = 16 - 1 := by rw [← h]; simp
      simpa using this
    · rintro h; rw [h]; rfl
  by_cases hb : s.blkIdx = 15
  · by_cases hc : s.chunkCtr = BitVec.allOnes 64
    · refine .inr (.inr ⟨hb, hc, ?_⟩)
      rw [blockStep, finishBlock, if_pos (by simpa using h15.mpr hb), completeChunk, if_pos (by simpa using hc)]
    · refine .inr (.inl ⟨hb, hc, ?_⟩)
      rw [blockStep, finishBlock, if_pos (by simpa using h15.mpr hb), completeChunk, if_neg (by simpa using hc)]
      rfl
  · refine .inl ⟨hb, ?_⟩
    rw [blockStep, finishBlock, if_neg (by simpa using fun h => hb (h15.mp h))]

/-- What a block step leaves alone (R142): everything but the live value, the counters, the stack and the request log. -/
theorem blockStep_frame (s t : State) (h : blockStep s = .ok t ∨ blockStep s = .error t) :
    t = { s with
      blkIdx := t.blkIdx, chunkCtr := t.chunkCtr, cv := t.cv, stk := t.stk, sp := t.sp, coreLog := t.coreLog } := by
  rcases blockStep_cases s with ⟨-, e⟩ | ⟨-, -, e⟩ | ⟨-, -, e⟩
  · rcases h with h | h <;> rw [e] at h <;> cases h
    rfl
  · obtain ⟨stk, sp, issued, hf, -⟩ := msFold_frame (coreAnswer (blockRequest s)) (s.chunkCtr + 1) (beforeFold s)
    rcases h with h | h <;> rw [e] at h <;> cases h
    rw [hf]
    rfl
  · rcases h with h | h <;> rw [e] at h <;> cases h
    rfl

/-- The loop of `INGEST`, one pass or the end (R130, R131). -/
theorem ingestLoop_stop (fuel : Nat) (data : List Byte) (s : State) (h : s.bufLen.toNat + data.length ≤ 64) :
    ingestLoop fuel data s = .ok (storeTail data s) := by
  cases fuel with
  | zero => rfl
  | succ fuel => rw [ingestLoop, if_neg (by omega)]

theorem ingest_stop (data : List Byte) (s : State) (h : s.bufLen.toNat + data.length ≤ 64) :
    ingest data s = .ok (storeTail data s) := ingestLoop_stop _ data s h

/-- What `INGEST` leaves alone (R142). -/
theorem ingestLoop_frame (fuel : Nat) (data : List Byte) (s t : State)
    (h : ingestLoop fuel data s = .ok t ∨ ingestLoop fuel data s = .error t) :
    t = { s with
      buf := t.buf, bufLen := t.bufLen, blkIdx := t.blkIdx, chunkCtr := t.chunkCtr, cv := t.cv, stk := t.stk,
      sp := t.sp, coreLog := t.coreLog } := by
  induction fuel generalizing data s with
  | zero =>
    rcases h with h | h <;> cases h
    rfl
  | succ fuel ih =>
    rw [ingestLoop] at h
    split at h
    · dsimp only at h
      split at h
      · rename_i e he
        have := blockStep_frame _ _ (.inr he)
        rcases h with h | h <;> cases h
        rw [this]
      · rename_i s' hs
        have h1 := blockStep_frame _ _ (.inl hs)
        have h2 := ih _ _ h
        rw [h2, h1]
    · rcases h with h | h <;> cases h
      rfl

theorem ingest_frame (data : List Byte) (s t : State) (h : ingest data s = .ok t ∨ ingest data s = .error t) :
    t = { s with
      buf := t.buf, bufLen := t.bufLen, blkIdx := t.blkIdx, chunkCtr := t.chunkCtr, cv := t.cv, stk := t.stk,
      sp := t.sp, coreLog := t.coreLog } := ingestLoop_frame _ data s t h

/-! ### The byte-serial form (R136) -/

theorem absorbAll_append (a b : List Byte) (s : State) :
    absorbAll (a ++ b) s = match absorbAll a s with
      | .error e => .error e
      | .ok s' => absorbAll b s' := by
  induction a generalizing s with
  | nil => rfl
  | cons x xs ih =>
    simp only [List.cons_append, absorbAll]
    cases absorb1 x s with
    | error e => rfl
    | ok s' => exact ih s'

/-- With room in the buffer a byte is only stored. -/
theorem absorb1_room (x : Byte) (s : State) (h : s.bufLen.toNat < 64) :
    absorb1 x s = .ok { s with buf := s.buf.setIfInBounds s.bufLen.toNat x, bufLen := s.bufLen + 1 } := by
  have : s.bufLen ≠ 64 := by rintro e; rw [e] at h; simp at h
  rw [absorb1, if_neg this]

/-- On a full buffer the block is compressed first. -/
theorem absorb1_full_ok (x : Byte) (s t : State) (h : s.bufLen = 64) (hb : blockStep { s with bufLen := 0 } = .ok t) :
    absorb1 x s = .ok { t with buf := t.buf.setIfInBounds t.bufLen.toNat x, bufLen := t.bufLen + 1 } := by
  rw [absorb1, if_pos h, hb]

theorem absorb1_full_error (x : Byte) (s e : State) (h : s.bufLen = 64)
    (hb : blockStep { s with bufLen := 0 } = .error e) : absorb1 x s = .error e := by
  rw [absorb1, if_pos h, hb]

theorem bufLen_succ (l : BitVec 7) (h : l.toNat < 64) : (l + 1).toNat = l.toNat + 1 := by
  rw [BitVec.toNat_add]; simp; omega

/-- Bytes that fit the buffer are stored as `INGEST` stores its leftover bytes (R135). -/
theorem absorbAll_stop (data : List Byte) (s : State) (h : s.bufLen.toNat + data.length ≤ 64) :
    absorbAll data s = .ok (storeTail data s) := by
  induction data generalizing s with
  | nil => simp [absorbAll, storeTail]
  | cons x xs ih =>
    simp only [List.length_cons] at h
    rw [absorbAll, absorb1_room x s (by omega)]
    dsimp only
    have e := bufLen_succ s.bufLen (by omega)
    rw [ih _ (by simp only [e]; omega)]
    simp only [storeTail, e, writeBytes, List.length_cons, Except.ok.injEq, State.mk.injEq, true_and, and_true]
    apply BitVec.eq_of_toNat_eq
    have e1 : (1 : BitVec 7).toNat = 1 := rfl
    simp only [BitVec.toNat_add, BitVec.toNat_ofNat, e1]
    omega

/-- From a full buffer, absorbing any bytes begins with a block step. -/
theorem absorbAll_full (data : List Byte) (s : State) (h : s.bufLen = 64) (hd : data ≠ []) :
    absorbAll data s = match blockStep { s with bufLen := 0 } with
      | .error e => .error e
      | .ok s' => absorbAll data s' := by
  cases data with
  | nil => exact absurd rfl hd
  | cons x xs =>
    rw [absorbAll, absorb1, if_pos h]
    cases hb : blockStep { s with bufLen := 0 } with
    | error e => rfl
    | ok s' =>
      have hl : s'.bufLen = 0 := by rw [blockStep_frame _ _ (.inl hb)]
      have h1 := absorb1_room x s' (by rw [hl]; decide)
      dsimp only
      rw [absorbAll, h1]

end Sys2Proof.Machine
end

