-- ==== Sys2Proof/Laws/PerInstr.lean ====
section
/-! SUPPORT. Statements made once per instruction, over the instruction as syntax. Family `TableRow`: the encoding of an
instruction has the selector of its row of spec/opcode_table.json: the first byte of a command (30_encoding.md R71 to R73), the
flag set `d` of a core request (R81). -/

namespace Sys2Proof.Laws

/-- The selector of a row: the first byte of a command, or `d` of a core request. -/
inductive Selector where
  | firstByte (x : Byte)
  | flagSet (d : BitVec 4)
deriving DecidableEq, Repr

/-- The row of an instruction in spec/opcode_table.json, by its `match` column. -/
def row : Instr → Selector
  | .init => .firstByte 0x00
  | .update _ => .firstByte 0x01
  | .final => .firstByte 0x02
  | .rddig => .firstByte 0x03
  | .chunkMid _ => .flagSet 0x0
  | .chunkFirst _ => .flagSet 0x1
  | .chunkLast _ => .flagSet 0x2
  | .chunkOnly _ => .flagSet 0x3
  | .chunkLastRoot _ => .flagSet 0xA
  | .chunkOnlyRoot _ => .flagSet 0xB
  | .parent _ => .flagSet 0x4
  | .parentRoot _ => .flagSet 0xC

/-- The selector an encoding carries. -/
def Carries : Encoding → Selector → Prop
  | .stream bytes, .firstByte x => bytes.head? = some x
  | .port r, .flagSet d => r.d = d
  | _, _ => False

namespace TableRow

/-- The encoding of `i` carries the selector of its row. -/
def Statement (i : Instr) : Prop := Carries (encode i) (row i)

theorem init : Statement .init := rfl
theorem update (data : List Byte) : Statement (.update data) := rfl
theorem final : Statement .final := rfl
theorem rddig : Statement .rddig := rfl
theorem chunkMid (a : CoreArgs) : Statement (.chunkMid a) := rfl
theorem chunkFirst (a : CoreArgs) : Statement (.chunkFirst a) := rfl
theorem chunkLast (a : CoreArgs) : Statement (.chunkLast a) := rfl
theorem chunkOnly (a : CoreArgs) : Statement (.chunkOnly a) := rfl
theorem chunkLastRoot (a : CoreArgs) : Statement (.chunkLastRoot a) := rfl
theorem chunkOnlyRoot (a : CoreArgs) : Statement (.chunkOnlyRoot a) := rfl
theorem parent (a : CoreArgs) : Statement (.parent a) := rfl
theorem parentRoot (a : CoreArgs) : Statement (.parentRoot a) := rfl

end TableRow
end Sys2Proof.Laws
end

