-- ==== Sys2Proof/Laws/Popcount.lean ====
section
/-! SUPPORT. `popcount` and `ctz` (00_scope.md R8), the arithmetic behind the stack's shape (43_merge_stack.md R155, R156). -/

namespace Sys2Proof.Machine

@[simp] theorem popcountNat_zero (f : Nat) : popcountNat f 0 = 0 := by
  induction f with
  | zero => rfl
  | succ f ih => simp [popcountNat, ih]

theorem popcountNat_le (f n : Nat) : popcountNat f n ≤ f := by
  induction f generalizing n with
  | zero => simp [popcountNat]
  | succ f ih => have := ih (n / 2); simp only [popcountNat]; omega

theorem popcountNat_le_self (f n : Nat) : popcountNat f n ≤ n := by
  induction f generalizing n with
  | zero => simp [popcountNat]
  | succ f ih => have := ih (n / 2); simp only [popcountNat]; omega

/-- Extra fuel changes nothing. -/
theorem popcountNat_succ (f n : Nat) (h : n < 2 ^ f) : popcountNat (f + 1) n = popcountNat f n := by
  induction f generalizing n with
  | zero => have : n = 0 := by omega
            subst this; rfl
  | succ f ih =>
    have h2 : n / 2 < 2 ^ f := by rw [Nat.pow_succ] at h; omega
    rw [popcountNat, ih _ h2, ← popcountNat]

theorem popcountNat_eq_zero (f n : Nat) (h : n < 2 ^ f) (h0 : popcountNat f n = 0) : n = 0 := by
  induction f generalizing n with
  | zero => omega
  | succ f ih =>
    have h2 : n / 2 < 2 ^ f := by rw [Nat.pow_succ] at h; omega
    simp only [popcountNat] at h0
    have := ih _ h2 (by omega)
    omega

/-- All `f` bits are set only in the largest number. -/
theorem popcountNat_eq_fuel (f n : Nat) (h : n < 2 ^ f) (h0 : popcountNat f n = f) : n = 2 ^ f - 1 := by
  induction f generalizing n with
  | zero => omega
  | succ f ih =>
    rw [Nat.pow_succ] at h ⊢
    have h2 : n / 2 < 2 ^ f := by omega
    simp only [popcountNat] at h0
    have hle := popcountNat_le f (n / 2)
    have := ih _ h2 (by omega)
    omega

theorem popcount_le (c : BitVec 64) : popcount c ≤ 64 := popcountNat_le 64 _

@[simp] theorem popcount_zero : popcount 0 = 0 := rfl

theorem popcount_eq_zero_iff (c : BitVec 64) : popcount c = 0 ↔ c = 0 := by
  constructor
  · intro h
    exact BitVec.eq_of_toNat_eq (by simpa using popcountNat_eq_zero 64 _ c.isLt h)
  · rintro rfl; rfl

theorem popcount_eq_full (c : BitVec 64) (h : popcount c = 64) : c.toNat = 2 ^ 64 - 1 :=
  popcountNat_eq_fuel 64 _ c.isLt h

/-- An odd counter has one more bit than the one before it. -/
theorem popcountNat_odd (f n : Nat) (h : n % 2 = 1) : popcountNat (f + 1) n = popcountNat (f + 1) (n - 1) + 1 := by
  simp only [popcountNat]
  have : n / 2 = (n - 1) / 2 := by omega
  rw [this]; omega

/-- Halving an even counter keeps its bits. -/
theorem popcountNat_even (f n : Nat) (h : n < 2 ^ f) (h2 : n % 2 = 0) : popcountNat f (n / 2) = popcountNat f n := by
  cases f with
  | zero => rfl
  | succ f =>
    have h3 : n / 2 < 2 ^ f := by rw [Nat.pow_succ] at h; omega
    rw [popcountNat_succ f (n / 2) h3]
    simp [popcountNat, h2]

/-- One less than an even counter has one bit more than one less than its half. -/
theorem popcountNat_pred_even (f n : Nat) (h : n < 2 ^ f) (h2 : n % 2 = 0) (h0 : 0 < n) :
    popcountNat f (n - 1) = popcountNat f (n / 2 - 1) + 1 := by
  cases f with
  | zero => omega
  | succ f =>
    have h3 : n / 2 - 1 < 2 ^ f := by rw [Nat.pow_succ] at h; omega
    have h4 : (n - 1) / 2 = n / 2 - 1 := by omega
    have h5 : (n - 1) % 2 = 1 := by omega
    rw [popcountNat_succ f _ h3]
    simp only [popcountNat, h4, h5]
    omega

theorem ctzNat_odd (f n : Nat) (h : n % 2 = 1) : ctzNat f n = 0 := by
  cases f <;> simp [ctzNat, h]

theorem ctzNat_even (f n : Nat) (h : n < 2 ^ f) (h2 : n % 2 = 0) (h0 : 0 < n) :
    ctzNat f n = 1 + ctzNat f (n / 2) := by
  induction f generalizing n with
  | zero => omega
  | succ f ih =>
    have h3 : n / 2 < 2 ^ f := by rw [Nat.pow_succ] at h; omega
    rw [ctzNat, if_neg (by omega)]
    by_cases h4 : n / 2 % 2 = 1
    · simp [ctzNat_odd _ _ h4]
    · rw [ih _ h3 (by omega) (by omega), ctzNat, if_neg h4]

/-- Counting one more chunk: the trailing zeros of the new counter are the bits that were merged away (R155, R156). -/
theorem ctzNat_add_popcountNat (f n : Nat) (h : n < 2 ^ f) (h0 : 0 < n) :
    ctzNat f n + popcountNat f n = popcountNat f (n - 1) + 1 := by
  induction n using Nat.strongRecOn with
  | ind n ih =>
    by_cases hev : n % 2 = 0
    · have := ih (n / 2) (by omega) (by omega) (by omega)
      rw [ctzNat_even f n h hev h0, popcountNat_pred_even f n h hev h0, ← popcountNat_even f n h hev]
      omega
    · have hodd : n % 2 = 1 := by omega
      cases f with
      | zero => omega
      | succ f =>
        rw [ctzNat_odd _ _ hodd, popcountNat_odd f n hodd]
        omega

end Sys2Proof.Machine
end

