-- ==== Sys2Proof/Laws/Step.lean ====
section
/-! SUPPORT. Everything a step can do, said once: later proofs split these cases and never unfold `step`. -/

namespace Sys2Proof.Machine

/-- What is decoded from the command stream is one of the four commands (30_encoding.md R70, R83). -/
theorem decodeStream_command (s : List Byte) (i : Instr) (rest : List Byte) (h : decodeStream s = .instr i rest) :
    i = .init ∨ (∃ data, i = .update data) ∨ i = .final ∨ i = .rddig := by
  cases s with
  | nil => simp [decodeStream] at h
  | cons x s =>
    rw [decodeStream] at h
    split at h
    · cases h
    · split at h
      · cases h; simp
      · rw [decodeUpdate] at h
        split at h
        · cases h
        · dsimp only at h
          split at h <;> cases h
          simp
      · cases h; simp
      · cases h; simp

/-- The kinds of step that answer a next state: a hardware reset; a step that moves nothing but the streams (a core request, a
command dropped by the gate, an incomplete command); and with no fault latched, a fresh context, a fault entry, an `UPDATE`
that completes or overflows, a `FINAL`, and an `RDDIG`. -/
theorem step_cases (s t : State) (h : step s = .next t) :
    (s.resetReq = true ∧ t = hardReset s) ∨
    (s.resetReq = false ∧ ∃ cmdIn coreIn coreOut, t = { s with cmdIn := cmdIn, coreIn := coreIn, coreOut := coreOut }) ∨
    (s.resetReq = false ∧ s.fault = 0 ∧ ∃ rest,
      (t = freshContext { s with cmdIn := rest }) ∨
      (∃ f, t = takeFault f { s with cmdIn := rest }) ∨
      (s.st ≠ .final ∧ ∃ data,
        ingest data { s with cmdIn := rest, st := .accum } = .ok t ∨
        ∃ e, ingest data { s with cmdIn := rest, st := .accum } = .error e ∧ t = takeOverflow s.st e) ∨
      (s.st ≠ .final ∧ t = spendContext (respondDigest { finalize { s with cmdIn := rest } with st := .final })) ∨
      (s.st = .final ∧ t = respondDigest { s with cmdIn := rest })) := by
  rw [step] at h
  split at h
  · rename_i hr
    cases h
    exact .inl ⟨hr, rfl⟩
  · rename_i hr
    have hr : s.resetReq = false := by simpa using hr
    right
    split at h
    · rename_i r later _
      rw [stepRequest] at h
      split at h
      · rename_i i hi
        rw [exec_request r i _ hi, serveRequest] at h
        split at h <;> cases h
        exact .inl ⟨hr, _, _, _, rfl⟩
      · cases h
    · rw [stepCommand] at h
      split at h
      · rename_i i rest hd
        by_cases hf : s.fault = 0
        · right
          refine ⟨hr, hf, rest, ?_⟩
          rcases decodeStream_command _ _ _ hd with rfl | ⟨data, rfl⟩ | rfl | rfl
          · rw [exec_init { s with cmdIn := rest } hf] at h
            cases h
            exact .inl rfl
          · by_cases hs : s.st = .final
            · rw [exec_update_final { s with cmdIn := rest } data hf hs] at h
              cases h
              exact .inr (.inl ⟨_, rfl⟩)
            · refine .inr (.inr (.inl ⟨hs, data, ?_⟩))
              cases hi : ingest data { s with cmdIn := rest, st := .accum } with
              | ok u =>
                rw [exec_update_ok { s with cmdIn := rest } u data hf hs hi] at h
                cases h
                exact .inl rfl
              | error e =>
                rw [exec_update_error { s with cmdIn := rest } e data hf hs hi] at h
                cases h
                exact .inr ⟨e, rfl, rfl⟩
          · by_cases hs : s.st = .final
            · rw [exec_final_final { s with cmdIn := rest } hf hs] at h
              cases h
              exact .inr (.inl ⟨_, rfl⟩)
            · rw [exec_final { s with cmdIn := rest } hf hs] at h
              cases h
              exact .inr (.inr (.inr (.inl ⟨hs, rfl⟩)))
          · by_cases hs : s.st = .final
            · rw [exec_rddig { s with cmdIn := rest } hf hs] at h
              cases h
              exact .inr (.inr (.inr (.inr ⟨hs, rfl⟩)))
            · rw [exec_rddig_early { s with cmdIn := rest } hf hs] at h
              cases h
              exact .inr (.inl ⟨_, rfl⟩)
        · obtain ⟨bytes, hb⟩ : ∃ bytes, encode i = .stream bytes := by
            rcases decodeStream_command _ _ _ hd with rfl | ⟨data, rfl⟩ | rfl | rfl <;> exact ⟨_, rfl⟩
          rw [exec_shut { s with cmdIn := rest } i bytes hf hb] at h
          cases h
          exact .inl ⟨hr, _, _, _, rfl⟩
      · rename_i x rest _
        by_cases hf : s.fault = 0
        · rw [reservedByte, gate_open { s with cmdIn := rest } _ hf] at h
          cases h
          exact .inr ⟨hr, hf, rest, .inr (.inl ⟨_, rfl⟩)⟩
        · rw [reservedByte, gate_shut { s with cmdIn := rest } _ hf] at h
          cases h
          exact .inl ⟨hr, _, _, _, rfl⟩
      · cases h
        exact .inl ⟨hr, _, _, _, rfl⟩
      · cases h
        exact .inl ⟨hr, _, _, _, rfl⟩

/-- A latched code is one of R211's, and never 0. -/
theorem Fault.code_ne_zero (f : Fault) : f.code ≠ 0 := by cases f <;> simp [Fault.code]

theorem Fault.code_le (f : Fault) : f.code.toNat ≤ 5 := by cases f <;> simp [Fault.code]

end Sys2Proof.Machine
end

