-- ==== Sys2Proof/Tests/Slice0.lean ====
section
/-! SUPPORT. Tests and witnesses. Every expected value is a vector of 95_test_vectors.md, named in the test's comment, or is
written out from the rule that is named. The witnesses show that the hypotheses of each obligation can be met together. -/

namespace Sys2Proof.Tests

open Sys2Proof.Machine

/-! ## Helpers -/

/-- A reading of the next state, if the answer is one. -/
def get {α : Type} (f : State → α) : Answer → Option α
  | .next s => some (f s)
  | _ => none

/-- A core request's operands with zero words. -/
def zeroArgs (t : BitVec 64) (b : BitVec 7) : CoreArgs := ⟨iv, Vector.replicate 16 0, t, b⟩

/-- The message words of `pat(64)` (V-W1). -/
def patWords : MsgBlock :=
  #v[0x03020100, 0x07060504, 0x0B0A0908, 0x0F0E0D0C, 0x13121110, 0x17161514, 0x1B1A1918, 0x1F1E1D1C,
     0x23222120, 0x27262524, 0x2B2A2928, 0x2F2E2D2C, 0x33323130, 0x37363534, 0x3B3A3938, 0x3F3E3D3C]

/-- The block `pat(64)`. -/
def patBlock : Buffer := Vector.ofFn fun i => BitVec.ofNat 8 i

/-- The digest of the empty input (V-K0). -/
def emptyDigest : List Byte :=
  [0xaf, 0x13, 0x49, 0xb9, 0xf5, 0xf9, 0xa1, 0xa6, 0xa0, 0x40, 0x4d, 0xea, 0x36, 0xdc, 0xc9, 0x49,
   0x9b, 0xcb, 0x25, 0xc9, 0xad, 0xc1, 0x12, 0xb7, 0xcc, 0x9a, 0x93, 0xca, 0xe4, 0x1f, 0x32, 0x62]

/-- The digest of "abc" (V-D0). -/
def abcDigest : List Byte :=
  [0x64, 0x37, 0xb3, 0xac, 0x38, 0x46, 0x51, 0x33, 0xff, 0xb6, 0x3b, 0x75, 0x27, 0x3a, 0x8d, 0xb5,
   0x48, 0xc5, 0x58, 0x46, 0x5d, 0x79, 0xdb, 0x03, 0xfd, 0x35, 0x9c, 0x6c, 0xd5, 0xbd, 0x9d, 0x85]

/-- Reset, then `n` pending bytes that are those of "abc" over stale bytes `ee` (V-X16). -/
def abcState : State :=
  { State.reset with
    st := .accum, bufLen := 3
    buf := Vector.ofFn fun i => if i.val = 0 then 0x61 else if i.val = 1 then 0x62 else if i.val = 2 then 0x63 else 0xee }

/-- The position after `n` bytes, with `pat(64)` in the buffer. -/
def atPosition (ctr : BitVec 64) (blk : BitVec 5) (len sp : BitVec 7) : State :=
  { State.reset with st := .accum, chunkCtr := ctr, blkIdx := blk, bufLen := len, sp := sp, buf := patBlock }

/-- A spent block whose digest register holds `pat(32)`. -/
def spent : State := { State.reset with st := .final, digest := Vector.ofFn fun i => BitVec.ofNat 8 i }

/-- The block with fault `f` latched. -/
def stopped (f : Fault) : State := takeFault f State.reset

/-- The start state of V-I40, or of V-F4, by its counter and `sp`. -/
def topState (ctr : BitVec 64) (sp : BitVec 7) : State :=
  { atPosition ctr 15 64 sp with
    cv := Vector.ofFn fun i => BitVec.ofNat 32 (0x11111111 * (i + 1))
    stk := Vector.ofFn fun i => Vector.replicate 8 (BitVec.ofNat 32 (i + 1)) }

/-! ## Well-formedness: each check refuses an ill-formed term -/

theorem test_wf_update_too_long : Instr.wf (.update (List.replicate (2 ^ 64) 0)) = false := by
  rw [Instr.wf, payloadFits, List.length_replicate]
  decide

theorem test_wf_update : Instr.wf (.update [1, 2, 3]) = true := by decide

theorem test_wf_core_long_block :
    ([.chunkMid (zeroArgs 0 65), .chunkFirst (zeroArgs 0 65), .chunkLast (zeroArgs 0 65), .chunkOnly (zeroArgs 0 65),
      .chunkLastRoot (zeroArgs 0 65), .chunkOnlyRoot (zeroArgs 0 65), .parent (zeroArgs 0 65),
      .parentRoot (zeroArgs 0 65)] : List Instr).map Instr.wf = List.replicate 8 false := by decide

theorem test_wf_core :
    ([.init, .final, .rddig, .chunkMid (zeroArgs 0 64), .chunkFirst (zeroArgs 0 64), .chunkLast (zeroArgs 0 64),
      .chunkOnly (zeroArgs 0 64), .chunkLastRoot (zeroArgs 0 64), .chunkOnlyRoot (zeroArgs 0 0), .parent (zeroArgs 0 64),
      .parentRoot (zeroArgs 0 64)] : List Instr).map Instr.wf = List.replicate 11 true := by decide

theorem test_wf_split_of_zero : Pseudo.wf (.updateS 0 [1]) = false := by decide

theorem test_wf_split_piece_too_long : Pseudo.wf (.updateS (2 ^ 64) (List.replicate (2 ^ 64) 0)) = false := by
  rw [Pseudo.wf, List.length_replicate]
  decide

/-- R85 bounds the pieces only. -/
theorem test_wf_split_long_input : Pseudo.wf (.updateS (2 ^ 64 - 1) (List.replicate (2 ^ 64) 0)) = true := by
  rw [Pseudo.wf, List.length_replicate]
  decide

theorem test_wf_hash_too_long : Pseudo.wf (.hash (List.replicate (2 ^ 64) 0)) = false := by
  rw [Pseudo.wf, payloadFits, List.length_replicate]
  decide

/-! ## Decoding: each row of spec/opcode_table.json by a word written out from the spec's encoding -/

/-- V-E1. -/
theorem test_decode_init : decodeStream [0b00000000#8] = .instr .init [] := by decide

/-- V-E5: selector 01, `LEN = 3` in eight bytes least significant first, then the payload. -/
theorem test_decode_update : decodeStream [0b00000001#8, 3, 0, 0, 0, 0, 0, 0, 0, 0x61, 0x62, 0x63] =
    .instr (.update [0x61, 0x62, 0x63]) [] := by decide

set_option maxRecDepth 100000 in
/-- V-E9: the second byte of `LEN` is its bits 15:8. -/
theorem test_decode_update_len_byte1 : decodeStream ([0x01, 0, 1, 0, 0, 0, 0, 0, 0] ++ List.replicate 257 7) =
    .instr (.update (List.replicate 256 7)) [7] := by decide

/-- V-E2. -/
theorem test_decode_final : decodeStream [0b00000010#8] = .instr .final [] := by decide

/-- V-E3. -/
theorem test_decode_rddig : decodeStream [0b00000011#8] = .instr .rddig [] := by decide

/-- V-E10 to V-E12, and the reserved byte next to `RDDIG` with `op = 0`. -/
theorem test_decode_reserved : [0x04, 0xff, 0x81, 0x80, 0x10].map (fun x => decodeStream [x, 0]) =
    [.reserved 0x04 [0], .reserved 0xff [0], .reserved 0x81 [0], .reserved 0x80 [0], .reserved 0x10 [0]] := by decide

/-- V-E13 to V-E15. -/
theorem test_decode_incomplete :
    [[0x01, 5, 0, 0, 0, 0, 0, 0, 0, 0x61, 0x62], [0x01, 3, 0, 0], []].map decodeStream =
      [.incomplete, .incomplete, .incomplete] := by decide

/-- R81: the flag sets of the eight forms, bit 0 `CHUNK_START`, bit 1 `CHUNK_END`, bit 2 `PARENT`, bit 3 `ROOT`. -/
theorem test_decode_forms :
    [0b0000, 0b0001, 0b0010, 0b0011, 0b1010, 0b1011, 0b0100, 0b1100].map (fun d => decodeRequest ⟨zeroArgs 1 2, d⟩) =
      [some (.chunkMid (zeroArgs 1 2)), some (.chunkFirst (zeroArgs 1 2)), some (.chunkLast (zeroArgs 1 2)),
       some (.chunkOnly (zeroArgs 1 2)), some (.chunkLastRoot (zeroArgs 1 2)), some (.chunkOnlyRoot (zeroArgs 1 2)),
       some (.parent (zeroArgs 1 2)), some (.parentRoot (zeroArgs 1 2))] := by decide

/-- V-C16, V-C17 and the six other flag sets that are no form. -/
theorem test_decode_no_form :
    [0x5, 0x8, 0x6, 0x7, 0x9, 0xD, 0xE, 0xF].map (fun d => decodeRequest ⟨zeroArgs 0 64, d⟩) =
      List.replicate 8 none := by decide

/-- The rows of the opcode table as words: commands in 8 bits, request forms in 4. -/
theorem test_decode_table_words :
    [(8, 0), (8, 1), (8, 2), (8, 3), (4, 0), (4, 1), (4, 2), (4, 3), (4, 0xA), (4, 0xB), (4, 4), (4, 0xC)].map
        (fun p => (decodeTableWord p.1 p.2).map Laws.row) =
      [some (.firstByte 0), some (.firstByte 1), some (.firstByte 2), some (.firstByte 3), some (.flagSet 0),
       some (.flagSet 1), some (.flagSet 2), some (.flagSet 3), some (.flagSet 0xA), some (.flagSet 0xB),
       some (.flagSet 4), some (.flagSet 0xC)] := by decide

/-- R72, V-E5: the encoder writes the bytes of the vector. -/
theorem test_encode_update : encode (.update [0x61, 0x62, 0x63]) =
    .stream [0x01, 3, 0, 0, 0, 0, 0, 0, 0, 0x61, 0x62, 0x63] := by decide

/-! ## The core and the serialiser -/

/-- V-G2. -/
theorem test_mix : (mix #v[1, 0, 0, 0, 2, 0, 0, 0, 3, 0, 0, 0, 4, 0, 0, 0] 0 4 8 12 5 6) =
    #v[0x001000CE, 0, 0, 0, 0x879C3839, 0, 0, 0, 0xCE0C1C03, 0, 0, 0, 0xCE001C00, 0, 0, 0] := by decide

/-- V-W1. -/
theorem test_load : leLoad16 patBlock = patWords := by decide +kernel

/-- V-W6. -/
theorem test_store :
    (leStore8 #v[0x00000001, 0x00000100, 0x00010000, 0x01000000, 0x80000000, 0xFFFFFFFF, 0x12345678, 0]).toList =
      [0x01, 0, 0, 0, 0, 0x01, 0, 0, 0, 0, 0x01, 0, 0, 0, 0, 0x01, 0, 0, 0, 0x80, 0xff, 0xff, 0xff, 0xff,
       0x78, 0x56, 0x34, 0x12, 0, 0, 0, 0] := by decide +kernel

/-- V-R1, the vector after `INIT_VECTOR`, and V-C9's counter words. -/
theorem test_init_vector : initVector iv 0x123456789ABCDEF0 64 0x1 =
    #v[0x6A09E667, 0xBB67AE85, 0x3C6EF372, 0xA54FF53A, 0x510E527F, 0x9B05688C, 0x1F83D9AB, 0x5BE0CD19,
       0x6A09E667, 0xBB67AE85, 0x3C6EF372, 0xA54FF53A, 0x9ABCDEF0, 0x12345678, 64, 1] := by decide

/-- V-S1 and V-M1: `popcount` and `ctz` of some counters. -/
theorem test_popcount_ctz : ([1, 7, 8, 63, 64].map popcount, [1, 2, 3, 4, 6, 8].map ctz) =
    ([1, 3, 1, 6, 1], [0, 1, 0, 2, 1, 3]) := by decide

/-- V-C7. -/
theorem test_chunkMid : get State.coreOut (exec (.chunkMid (zeroArgs 1 64)) State.reset) =
    some [#v[0x8322EA61, 0xE23A0FA6, 0x051ED60E, 0x5C15C1F5, 0xF5FB6A3B, 0xDFF9B2F6, 0xEE66A657, 0xACDB3222]] := by decide +kernel

/-- V-C3. -/
theorem test_chunkFirst : get State.coreOut (exec (.chunkFirst ⟨iv, patWords, 0, 64⟩) State.reset) =
    some [#v[0x9D3729FF, 0x57F21CDB, 0xAB5A0F7D, 0x4E8F734E, 0xB16CF69F, 0x888CCC5C, 0x2D1D84AC, 0x206F2607]] := by decide +kernel

/-- V-C10. -/
theorem test_chunkLast : get State.coreOut (exec (.chunkLast (zeroArgs 0xFFFFFFFFFFFFFFFF 64)) State.reset) =
    some [#v[0x805002EB, 0xBCDB37C8, 0xB1C9DBC5, 0x03316434, 0x3BB97D67, 0x978DF111, 0x1FA64761, 0x63B866C1]] := by decide +kernel

/-- V-C5. -/
theorem test_chunkOnly : get State.coreOut (exec (.chunkOnly (zeroArgs 0 64)) State.reset) =
    some [#v[0xB559333C, 0xC9D88819, 0x896CD50D, 0x1C8C81DA, 0xE16C7D9D, 0xCBFBBBD4, 0xBF21CAFE, 0xFB59C23E]] := by decide +kernel

/-- V-C2: "abc" as one root block. -/
theorem test_chunkOnlyRoot :
    get State.coreOut (exec (.chunkOnlyRoot ⟨iv, (Vector.replicate 16 0).set 0 0x00636261, 0, 3⟩) State.reset) =
      some [#v[0xACB33764, 0x33514638, 0x753BB6FF, 0xB58D3A27, 0x4658C548, 0x03DB795D, 0x6C9C35FD, 0x859DBDD5]] := by decide +kernel

/-- V-C11. -/
theorem test_parent : get State.coreOut (exec (.parent ⟨iv, iv ++ iv, 0, 64⟩) State.reset) =
    some [#v[0x95B2B5D0, 0x2BD5248F, 0xAFA07BF4, 0x5F33B0BF, 0xA35BC360, 0x85911E5B, 0xADEBDD79, 0x36A5D705]] := by decide +kernel

/-- V-C12. -/
theorem test_parentRoot : get State.coreOut (exec (.parentRoot ⟨iv, iv ++ iv, 0, 64⟩) State.reset) =
    some [#v[0xD426665C, 0x9601A700, 0x01F74FC1, 0xA93AC656, 0x96622A9F, 0x8B260990, 0xB9FF5693, 0xB65C784F]] := by decide +kernel

/-- V-K10, the digest of `pat(65)` as words: its one-byte second block, from the chaining value of V-I5. -/
theorem test_chunkLastRoot :
    get State.coreOut (exec (.chunkLastRoot ⟨#v[0x9D3729FF, 0x57F21CDB, 0xAB5A0F7D, 0x4E8F734E, 0xB16CF69F, 0x888CCC5C,
        0x2D1D84AC, 0x206F2607], (Vector.replicate 16 0).set 0 0x40, 0, 1⟩) State.reset) =
      some [#v[0xA05F1EDE, 0x6DDF70BE, 0xFDFFE82B, 0xAACE990E, 0xC9E8B68E, 0xD8F2633A, 0xCB0EC3D1, 0xEE3D266B]] := by decide +kernel

/-- V-C15. -/
theorem test_core_refuses_65 :
    exec (.chunkOnly (zeroArgs 0 65)) State.reset = .refused (.corePrecond 65 0x3) := rfl

/-- V-C16, V-C17. -/
theorem test_core_refuses_no_form :
    step (State.reset.present ⟨zeroArgs 0 64, 0x5⟩) = .refused (.corePrecond 64 0x5) ∧
    step (State.reset.present ⟨zeroArgs 0 64, 0x8⟩) = .refused (.corePrecond 64 0x8) := ⟨rfl, rfl⟩

/-! ## The commands -/

/-- V-H9: `INIT` in `FINAL` enters `EMPTY`. -/
theorem test_init : get (fun s => (s.st, s.sp, s.cv, statusWord s)) (exec .init spent) = some (.empty, 0, iv, 0) := by decide

/-- V-H6 on the "abc" state: the byte goes behind the pending ones. -/
theorem test_update : get (fun s => (s.st, s.bufLen, s.buf[2], s.buf[3], s.buf[4])) (exec (.update [0x78]) abcState) =
    some (.accum, 4, 0x63, 0x78, 0xee) := by decide

/-- V-I32: the pass with `k = 0`. -/
theorem test_update_full_buffer :
    get (fun s => (s.bufLen, s.buf[0], s.blkIdx, s.cv)) (exec (.update [0xaa]) (atPosition 0 0 64 0)) =
      some (1, 0xaa, 1, #v[0x9D3729FF, 0x57F21CDB, 0xAB5A0F7D, 0x4E8F734E, 0xB16CF69F, 0x888CCC5C, 0x2D1D84AC, 0x206F2607]) := by
  decide +kernel

/-- V-H3. -/
theorem test_final_empty : get (fun s => (s.st, s.respOut)) (exec .final State.reset) = some (.final, emptyDigest) := by decide +kernel

/-- V-X16: the stale bytes are padded over. -/
theorem test_final_abc : get (fun s => (s.digest.toList, s.respOut, statusWord s)) (exec .final abcState) =
    some (abcDigest, abcDigest, 0x00000002) := by decide +kernel

/-- V-H12 (the register's bytes as they are, twice when asked twice), V-H4. -/
theorem test_rddig :
    get State.respOut (exec .rddig spent) = some ((List.range 32).map (BitVec.ofNat 8)) ∧
    get statusWord (exec .rddig State.reset) = some 0x30 := by decide

/-- V-H10, V-H11, V-H8, V-F5. -/
theorem test_faults :
    get statusWord (exec (.update [0x78]) spent) = some 0x12 ∧ get statusWord (exec .final spent) = some 0x22 ∧
    get statusWord (exec .rddig abcState) = some 0x31 ∧ get statusWord (step (State.reset.send [0x04])) = some 0x50 ∧
    get statusWord (exec (.update []) spent) = some 0x12 := by decide

/-- V-I40: the fold at the counter's last value pushes the 64th entry. -/
theorem test_counter_top :
    get (fun s => ((s.chunkCtr, s.sp, s.stk[63]), s.cv, s.fault, s.bufLen, s.buf[0]))
        (exec (.update [0]) (topState 0xFFFFFFFFFFFFFFFE 63)) =
      some ((0xFFFFFFFFFFFFFFFF, 64,
        #v[0xCCB80EE8, 0x19F9FCE6, 0xAC5755C6, 0xDD6FAD60, 0x56CE0C3E, 0x511EDFB7, 0x66A407C7, 0xB4A23AAA]), iv, 0, 1, 0) := by
  decide +kernel

/-- V-F4. -/
theorem test_counter_overflow :
    get statusWord (exec (.update [0]) (topState 0xFFFFFFFFFFFFFFFF 64)) = some 0x00000041 ∧
    get (fun s => (s.bufLen, s.fault)) (exec (.update [0]) { topState 0xFFFFFFFFFFFFFFFF 64 with bufLen := 63 }) =
      some (64, 0) := by decide

/-- V-F6, V-F7, V-F10: the gate keeps the first code, and reset clears it. -/
theorem test_gate_and_reset :
    get statusWord (step ((stopped (.finalAfterFinal .final)).send [0x00])) = some 0x20 ∧
    get (fun s => (statusWord s, s.cmdIn)) (step ((stopped (.digestBeforeFinal .empty)).send [0x04, 0x02])) =
      some (0x30, [0x02]) ∧
    get statusWord (step (stopped (.finalAfterFinal .final)).assertReset) = some 0 := by decide

/-! ## Witnesses: states that meet the hypotheses of the obligations together -/

/-- The position after 1024 bytes (V-I11). -/
def at1024 : State := atPosition 0 15 64 0

/-- The position after 1025 bytes (V-I12). -/
def at1025 : State := atPosition 1 0 1 1

/-- The position after `2^74` bytes (V-F4). -/
def atBound : State := topState 0xFFFFFFFFFFFFFFFF 64

/-- A block in `FINAL` with one command waiting. -/
def spentWith (bytes : List Byte) : State := { spent with cmdIn := bytes }

theorem reset_rest : RestInv State.reset :=
  ⟨fun _ => ⟨by decide, by decide, by decide, by decide, by decide, by decide⟩, by decide, rfl⟩

theorem abc_rest : RestInv abcState :=
  ⟨fun _ => ⟨by decide, by decide, by decide, by decide, by decide, by decide⟩, by decide, rfl⟩

theorem at1024_rest : RestInv at1024 :=
  ⟨fun _ => ⟨by decide, by decide, by decide, by decide, by decide, by decide⟩, by decide, rfl⟩

theorem at1025_rest : RestInv at1025 :=
  ⟨fun _ => ⟨by decide, by decide, by decide, by decide, by decide, by decide⟩, by decide, rfl⟩

theorem atBound_rest : RestInv atBound :=
  ⟨fun _ => ⟨by decide, by decide, by decide, by decide, by decide, by decide⟩, by decide, rfl⟩

theorem spent_rest : RestInv spent := ⟨fun h => absurd rfl h.2, by decide, rfl⟩

theorem stopped_rest : RestInv (stopped (.digestBeforeFinal .empty)) :=
  ⟨fun h => absurd h.1 (by decide), by decide, rfl⟩

/-- DecodeOfEncodeIsTheInstruction, in both spaces, `b` at its bound. -/
theorem witness_decodeOfEncode : (Instr.update [0xff, 0x00]).wf = true ∧ (Instr.parent (zeroArgs 0 64)).wf = true ∧
    encode (.update [0xff]) = .stream [0x01, 1, 0, 0, 0, 0, 0, 0, 0, 0xff] := by decide

/-- DecodedCommandHasOneEncoding. -/
theorem witness_decodedCommand :
    decodeStream [0x01, 1, 0, 0, 0, 0, 0, 0, 0, 0x61, 0x02] = .instr (.update [0x61]) [0x02] := by decide

/-- StepRunsTheDecodedCommand, and it runs: the block absorbs the byte. -/
theorem witness_stepRuns : ∃ (s : State) (rest : List Byte), s.resetReq = false ∧ s.coreIn = [] ∧
    decodeStream s.cmdIn = .instr (.update [0x61]) rest ∧
    get (fun t => (t.cmdIn, t.bufLen)) (step s) = some ([0x02], 1) :=
  ⟨State.reset.send [0x01, 1, 0, 0, 0, 0, 0, 0, 0, 0x61, 0x02], [0x02], by decide⟩

/-- StepServesTheWaitingRequest: a request of a form, and one of none. -/
theorem witness_stepServes : ∃ (s u : State) (r q : Request), s.resetReq = false ∧ s.coreIn = [r] ∧ (decodeRequest r).isSome = true ∧
    u.resetReq = false ∧ u.coreIn = [q] ∧ decodeRequest q = none :=
  ⟨State.reset.present ⟨zeroArgs 0 64, 0xC⟩, State.reset.present ⟨zeroArgs 0 64, 0x5⟩, ⟨zeroArgs 0 64, 0xC⟩,
    ⟨zeroArgs 0 64, 0x5⟩, by decide⟩

/-- ReservedByteRaisesFaultFive, at the least and the greatest reserved byte. -/
theorem witness_reservedByte : (State.reset.send [0x04]).cmdIn = [0x04] ∧ (0x04 : Byte).toNat / 4 ≠ 0 ∧
    (0xff : Byte).toNat / 4 ≠ 0 ∧ (0x03 : Byte).toNat / 4 = 0 ∧ State.reset.fault = 0 ∧ State.reset.resetReq = false ∧
    State.reset.coreIn = [] := by decide

/-- IncompleteCommandTakesNoStep, each clause: no byte, seven bytes of `LEN`, one payload byte short. -/
theorem witness_incomplete :
    ((State.reset.send []).cmdIn = []) ∧
    (∃ tail, (State.reset.send [0x01, 1, 0, 0, 0, 0, 0, 0]).cmdIn = 0x01 :: tail ∧ tail.length < 8) ∧
    (∃ tail, (State.reset.send [0x01, 2, 0, 0, 0, 0, 0, 0, 0, 9]).cmdIn = 0x01 :: tail ∧
      ¬ tail.length < 8 ∧ tail.length < 8 + leNat (tail.take 8)) :=
  ⟨rfl, ⟨[1, 0, 0, 0, 0, 0, 0], by decide⟩, ⟨[2, 0, 0, 0, 0, 0, 0, 0, 9], by decide⟩⟩

/-- HardwareResetGivesAFreshContext. -/
theorem witness_hardwareReset : (stopped (.reservedCmd 4)).assertReset.resetReq = true := rfl

/-- InitGivesAFreshContext, from each of the three states. -/
theorem witness_init : State.reset.fault = 0 ∧ abcState.fault = 0 ∧ spent.fault = 0 := by decide

/-- UpdateWithinTheBufferOnlyStores and EmptyUpdateOnlyMovesToAccum, at the bound: the byte that fills the buffer, and none on
a full one. -/
theorem witness_updateWithin : Ready abcState ∧ Ready at1024 ∧
    { at1024 with bufLen := 63 }.bufLen.toNat + [(0 : Byte)].length ≤ 64 ∧
    at1024.bufLen.toNat + ([] : List Byte).length ≤ 64 := by decide

/-- ByteOnFullBufferCompressesTheBlock, for the first block, a later one, and the last index below 15. -/
theorem witness_byteOnFullBuffer : ∀ blk ∈ ([0, 1, 14] : List (BitVec 5)), ∃ s, Ready s ∧ s.bufLen = 64 ∧ s.blkIdx = blk ∧
    s.blkIdx.toNat < 15 := by
  intro blk hb
  refine ⟨atPosition 0 blk 64 0, ⟨rfl, fun h => nomatch h⟩, rfl, rfl, ?_⟩
  have h : blk.toNat < 15 := by revert blk; decide
  exact h

/-- SixteenthBlockCompletesTheChunk, at the first counter value and the last that can be incremented. -/
theorem witness_sixteenthBlock : ∀ ctr ∈ ([0, 0xFFFFFFFFFFFFFFFE] : List (BitVec 64)), ∃ s, Ready s ∧ s.bufLen = 64 ∧
    s.blkIdx = 15 ∧ s.chunkCtr = ctr ∧ s.chunkCtr.toNat < 2 ^ 64 - 1 := by
  intro ctr hc
  refine ⟨atPosition ctr 15 64 0, ⟨rfl, fun h => nomatch h⟩, rfl, rfl, rfl, ?_⟩
  have h : ctr = 0 ∨ ctr = 0xFFFFFFFFFFFFFFFE := by simpa using hc
  rcases h with rfl | rfl <;> decide

/-- UpdateAdvancesThePosition, AbsorbedBytesLandAtTheirOffset: from the start, and up to the bound. -/
theorem witness_updateAdvances :
    (RestInv State.reset ∧ Ready State.reset ∧ total State.reset + [(1 : Byte)].length ≤ 2 ^ 74) ∧
    (RestInv atBound ∧ Ready atBound ∧ total atBound + ([] : List Byte).length ≤ 2 ^ 74) :=
  ⟨⟨reset_rest, by decide, by decide⟩, ⟨atBound_rest, by decide, by decide⟩⟩

/-- AbsorbedBytesLandAtTheirOffset: a payload that completes. -/
theorem witness_absorbedBytes : ∃ t, exec (.update [0x78]) abcState = .next t ∧ RestInv abcState ∧ Ready abcState ∧
    total abcState + [(0x78 : Byte)].length ≤ 2 ^ 74 := ⟨_, rfl, abc_rest, by decide, by decide⟩

/-- UpdatePastTheBoundRaisesOverflow, one byte past it. -/
theorem witness_pastTheBound : RestInv atBound ∧ Ready atBound ∧ 2 ^ 74 < total atBound + [(0 : Byte)].length :=
  ⟨atBound_rest, by decide, by decide⟩

/-- UpdateAfterFinalRaisesFaultOne, for the empty payload. -/
theorem witness_updateAfterFinal : ∃ (s : State) (rest : List Byte), s.resetReq = false ∧ s.coreIn = [] ∧
    decodeStream s.cmdIn = .instr (.update []) rest ∧ s.fault = 0 ∧ s.st = .final :=
  ⟨spentWith [0x01, 0, 0, 0, 0, 0, 0, 0, 0, 0x02], [0x02], by decide⟩

/-- FinalAfterFinalRaisesFaultTwo, RddigRespondsTheLatchedDigest. -/
theorem witness_inFinal : spent.fault = 0 ∧ spent.st = .final := by decide

/-- ReadBeforeFinalRaisesFaultThree, in both states. -/
theorem witness_notFinal : Ready State.reset ∧ State.reset.st = .empty ∧ Ready abcState ∧ abcState.st = .accum := by decide

/-- FinalPadsCompressesAndUnwinds, for each value of the flags and both ends of `sp`. -/
theorem witness_final :
    (Ready State.reset ∧ State.reset.blkIdx = 0 ∧ State.reset.sp = 0) ∧
    (Ready at1024 ∧ at1024.blkIdx ≠ 0 ∧ at1024.sp = 0) ∧
    (Ready at1025 ∧ at1025.blkIdx = 0 ∧ at1025.sp ≠ 0 ∧ at1025.sp.toNat ≤ 64) ∧
    (Ready atBound ∧ atBound.blkIdx ≠ 0 ∧ atBound.sp.toNat = 64) := by decide

/-- TransitionTable: its three states, and an `UPDATE` on either side of the bound. -/
theorem witness_transitions : (State.reset.fault = 0 ∧ State.reset.st = .empty) ∧
    (abcState.fault = 0 ∧ abcState.st = .accum) ∧ (spent.fault = 0 ∧ spent.st = .final) ∧
    (RestInv atBound ∧ Ready atBound ∧ total atBound + ([] : List Byte).length ≤ 2 ^ 74 ∧
      2 ^ 74 < total atBound + [(0 : Byte)].length) :=
  ⟨by decide, by decide, by decide, atBound_rest, by decide, by decide, by decide⟩

/-- FaultGateDropsEveryCommand, OnlyResetLeavesTheFault: a whole command, a reserved byte, and a reset in a stopped block. -/
theorem witness_gate : (stopped (.reservedCmd 4)).fault ≠ 0 ∧ encode .final = .stream [0x02] ∧
    decodeStream ((stopped (.reservedCmd 4)).send [0x00]).cmdIn = .instr .init [] ∧
    decodeStream ((stopped (.reservedCmd 4)).send [0x80]).cmdIn = .reserved 0x80 [] ∧
    get State.fault (step (stopped (.reservedCmd 4)).assertReset) = some 0 := by decide

/-- MixStepRewritesItsFourWords and DisjointMixStepsCommute, for the quadruples of columns 0 and 1. -/
theorem witness_mix : ([0, 4, 8, 12] : List (Fin 16)).Nodup ∧ ([0, 4, 8, 12, 1, 5, 9, 13] : List (Fin 16)).Nodup := by decide

/-- ExposedCoreAnswersEveryForm at `b = 0` and 64, ExposedCoreRefusesALongBlock at 65 and 127. -/
theorem witness_core : (zeroArgs 0 0).b.toNat ≤ 64 ∧ (zeroArgs 0 64).b.toNat ≤ 64 ∧ 64 < (zeroArgs 0 65).b.toNat ∧
    64 < (zeroArgs 0 127).b.toNat := by decide

/-- LoadAndStoreAreInverse: a block and a value that agree on their common part. -/
theorem witness_loadStore :
    (∀ i, i < 64 → (Vector.replicate 64 0 : Buffer)[i]? =
      if i < 32 then (leStore8 (Vector.replicate 8 0))[i]? else some 0) ∧
    ∀ i (hi : i < 8), (Vector.replicate 8 0 : Cv)[i] = (leLoad16 (Vector.replicate 64 0))[i] := by
  refine ⟨by decide +kernel, by decide +kernel⟩

/-- PopReturnsThePushedEntry, on an empty stack and one entry short of full. -/
theorem witness_push : State.reset.sp.toNat < 64 ∧ (atPosition 0 0 0 63).sp.toNat < 64 := by decide

/-- FoldKeepsTheStackShape: a fold without a merge, one with one, and the last one. -/
theorem witness_fold : (State.reset.sp.toNat = popcount (1 - 1) ∧ (1 : BitVec 64) ≠ 0) ∧
    (at1025.sp.toNat = popcount (2 - 1) ∧ (2 : BitVec 64) ≠ 0) ∧
    ((atPosition 0 0 0 63).sp.toNat = popcount (0xFFFFFFFFFFFFFFFF - 1) ∧ (0xFFFFFFFFFFFFFFFF : BitVec 64) ≠ 0) := by decide

/-- FoldMergesTheTopEntryFirst, both clauses. -/
theorem witness_foldStep : (1 : BitVec 64).getLsbD 0 = true ∧ (2 : BitVec 64).getLsbD 0 = false ∧ 0 < at1025.sp.toNat ∧
    at1025.sp.toNat ≤ 64 ∧ 0 < atBound.sp.toNat ∧ atBound.sp.toNat ≤ 64 := by decide

/-- StackNeverOverflows: the first chunk completion and the last, whose push finds 63 entries; a step that ends on a full stack
(a zero-length `UPDATE` at the bound). -/
theorem witness_stackBound :
    (State.reset.sp.toNat = popcount State.reset.chunkCtr ∧ State.reset.chunkCtr ≠ BitVec.allOnes 64) ∧
    ((topState 0xFFFFFFFFFFFFFFFE 63).sp.toNat = popcount (topState 0xFFFFFFFFFFFFFFFE 63).chunkCtr ∧
      (topState 0xFFFFFFFFFFFFFFFE 63).chunkCtr ≠ BitVec.allOnes 64) ∧
    ∃ s t, RestInv s ∧ step s = .next t ∧ Ready t ∧ t.sp.toNat = 64 :=
  ⟨by decide, by decide, atBound.send [0x01, 0, 0, 0, 0, 0, 0, 0, 0], _,
    ⟨fun _ => ⟨by decide, by decide, by decide, by decide, by decide, by decide⟩, by decide, rfl⟩, rfl, by decide, by decide⟩

/-- IngestEqualsByteSerialForm, IncrementalEquivalence: a full buffer. -/
theorem witness_ingest : at1024.bufLen.toNat ≤ 64 ∧ at1024.fault = 0 ∧ at1024.st ≠ .final := by decide

/-- DigestIgnoresTheSplit, DigestIsTheChunkTree: two cuttings of "abc", an empty piece among them. -/
theorem witness_split : ([[0x61], [], [0x62, 0x63]] : List (List Byte)).flatten = [[0x61, 0x62, 0x63]].flatten ∧
    ([[0x61], [], [0x62, 0x63]] : List (List Byte)).flatten.length ≤ 2 ^ 74 ∧ State.reset.fault = 0 ∧ spent.fault = 0 := by
  decide

/-- SplitFeedingEqualsOneUpdate: pieces of one byte, and one piece. -/
theorem witness_splitFeeding : RestInv abcState ∧ Ready abcState ∧ Pseudo.expand (.updateS 1 [7, 8]) = [.update [7], .update [8]] ∧
    Pseudo.expand (.updateS 2 [7, 8]) = [.update [7, 8]] ∧ total abcState + [(7 : Byte), 8].length ≤ 2 ^ 74 :=
  ⟨abc_rest, by decide, by decide, by decide, by decide⟩

/-- EmptyInputDigest: a fresh context over stale bytes. -/
theorem witness_emptyInput : RestInv State.reset ∧ Ready State.reset ∧ total State.reset = 0 ∧
    Ready { State.reset with buf := patBlock } ∧ total { State.reset with buf := patBlock } = 0 :=
  ⟨reset_rest, by decide, rfl, by decide, rfl⟩

/-- SingleChunkBoundary, both clauses; FinalIssuesOneRequestPerEntry. -/
theorem witness_boundary : (RestInv at1024 ∧ Ready at1024 ∧ total at1024 = 1024) ∧
    (RestInv at1025 ∧ Ready at1025 ∧ total at1025 = 1025) :=
  ⟨⟨at1024_rest, by decide, by decide⟩, ⟨at1025_rest, by decide, by decide⟩⟩

/-- StepKeepsTheInvariants, EveryRequestIsLegalWithOneRoot, WorkMatchesThePosition: a step that consumes a command. -/
theorem witness_invariantStep : ∃ t, RestInv (State.reset.send [0x00]) ∧ RequestInv (State.reset.send [0x00]) ∧
    WorkInv (State.reset.send [0x00]) ∧ step (State.reset.send [0x00]) = .next t ∧ t.cmdIn = [] :=
  ⟨_, ⟨fun _ => ⟨by decide, by decide, by decide, by decide, by decide, by decide⟩, by decide, rfl⟩,
    ⟨by simp [State.send, State.reset], rfl, fun h => nomatch h⟩, ⟨fun _ => rfl, fun _ => rfl⟩, rfl, rfl⟩

/-- HiddenStateIsUnobservable: two states that differ in a stale byte of `buf` and in `digest`. -/
theorem witness_hidden : ∃ s u, RestInv s ∧ SameVisible s u ∧ s.buf ≠ u.buf ∧ s.digest ≠ u.digest ∧
    get State.st (step s) = some .empty :=
  ⟨State.reset.send [0x00], { State.reset.send [0x00] with buf := patBlock, digest := Vector.replicate 32 1 },
    ⟨fun _ => ⟨by decide, by decide, by decide, by decide, by decide, by decide⟩, by decide, rfl⟩,
    ⟨rfl, rfl, rfl, rfl, rfl, rfl, rfl, fun _ h => (nomatch h), fun _ => rfl, fun _ => rfl, fun _ => rfl, fun _ => rfl,
      fun _ => rfl, fun _ i h => absurd h (Nat.not_lt_zero i), fun _ _ _ => rfl⟩, by decide, by decide, by decide⟩

/-- ExposedCoreIsIndependentOfTheBlock. -/
theorem witness_independent : (State.reset.send [0x00]).resetReq = false ∧ (State.reset.send [0x00]).coreIn = [] ∧
    (zeroArgs 0 64).b.toNat ≤ 64 ∧ (decodeRequest ⟨zeroArgs 0 64, 0x4⟩).isSome = true := by decide

end Sys2Proof.Tests
end

/-! ### The counter's bits under a fold (43_merge_stack.md R154 to R156) -/

namespace Sys2Proof.Machine

theorem getLsbD_zero_eq_true_iff (t : BitVec 64) : t.getLsbD 0 = true ↔ t.toNat % 2 = 1 := by
  simp [BitVec.getLsbD, Nat.testBit_zero]

theorem getLsbD_zero_eq_false_iff (t : BitVec 64) : t.getLsbD 0 = false ↔ t.toNat % 2 = 0 := by
  rw [← Bool.not_eq_true, getLsbD_zero_eq_true_iff]
  omega

theorem pred_toNat {t : BitVec 64} (h : t ≠ 0) : (t - 1).toNat = t.toNat - 1 := by
  have := BitVec.toNat_pos_of_ne_zero h
  bv_omega

theorem half_toNat (t : BitVec 64) : (t >>> 1).toNat = t.toNat / 2 := by
  simp [Nat.shiftRight_eq_div_pow]

/-- A counter with its low bit set has one bit more than the one before it. -/
theorem popcount_odd (t : BitVec 64) (h : t.getLsbD 0 = true) : popcount t = popcount (t - 1) + 1 := by
  have hodd := (getLsbD_zero_eq_true_iff t).mp h
  have h0 : t ≠ 0 := by rintro rfl; simp at h
  rw [popcount, popcount, pred_toNat h0, popcountNat_odd 63 _ hodd]

/-- Halving a counter whose low bit is clear keeps its bits. -/
theorem popcount_half (t : BitVec 64) (h : t.getLsbD 0 = false) : popcount (t >>> 1) = popcount t := by
  have heven := (getLsbD_zero_eq_false_iff t).mp h
  rw [popcount, popcount, half_toNat, popcountNat_even 64 _ t.isLt heven]

theorem half_ne_zero (t : BitVec 64) (h : t.getLsbD 0 = false) (h0 : t ≠ 0) : t >>> 1 ≠ 0 := by
  have heven := (getLsbD_zero_eq_false_iff t).mp h
  have hpos := BitVec.toNat_pos_of_ne_zero h0
  intro e
  have : (t >>> 1).toNat = 0 := by rw [e]; rfl
  rw [half_toNat] at this
  omega

/-- One merge: the counter before `t` has one bit more than the counter before its half. -/
theorem popcount_pred_half (t : BitVec 64) (h : t.getLsbD 0 = false) (h0 : t ≠ 0) :
    popcount (t - 1) = popcount ((t >>> 1) - 1) + 1 := by
  have heven := (getLsbD_zero_eq_false_iff t).mp h
  rw [popcount, popcount, pred_toNat h0, pred_toNat (half_ne_zero t h h0), half_toNat,
    popcountNat_pred_even 64 _ t.isLt heven (BitVec.toNat_pos_of_ne_zero h0)]

/-! ### What a fold leaves of the stack pointer -/

/-- A merge's pop takes one entry off the stack (R152). -/
theorem issue_msPop_sp_toNat {s : State} {n : Nat} (hn : s.sp.toNat = n + 1) (r : Request) :
    (issue r (msPop s).2).sp.toNat = n := by
  have h0 : s.sp ≠ 0 := by intro e; rw [e] at hn; cases hn
  rw [issue_sp, msPop_sp, sp_pred_toNat _ h0, hn, Nat.add_sub_cancel]

/-- A fold takes the stack from the height of counter `t - 1` to the height of counter `t` (R156). -/
theorem msFold_sp (c : Cv) (t : BitVec 64) (s : State) (h0 : t ≠ 0) (hs : s.sp.toNat = popcount (t - 1)) :
    (msFold c t s).sp.toNat = popcount t := by
  induction hn : s.sp.toNat generalizing c t s with
  | zero =>
    have ht : t - 1 = 0 := (popcount_eq_zero_iff _).mp (by omega)
    obtain rfl : t = 1 := by bv_omega
    rw [msFold_push c 1 s (.inl rfl), msPush_sp, sp_succ_toNat _ (by omega), hn]
    rfl
  | succ n ih =>
    cases hb : t.getLsbD 0 with
    | true =>
      have hle := popcount_le (t - 1)
      rw [msFold_push c t s (.inl hb), msPush_sp, sp_succ_toNat _ (by omega), hs, popcount_odd t hb]
    | false =>
      have hsp : s.sp ≠ 0 := by intro e; rw [e] at hn; cases hn
      have hpop := issue_msPop_sp_toNat hn
      have hhalf := popcount_pred_half t hb h0
      rw [msFold_merge c t s hb hsp, ih _ (t >>> 1) _ (half_ne_zero t hb h0) ((hpop _).trans (by omega)) (hpop _),
        popcount_half t hb]

end Sys2Proof.Machine

/-! ### What `UPDATE` keeps of the invariants at rest (10_state.md R40, 42_context_ingest.md R141) -/

namespace Sys2Proof.Machine

/-- Items 1, 5 and 6 of R40 that do not speak of the buffer: what holds between two block steps of one `UPDATE` too. -/
structure ChunkInv (s : State) : Prop where
  blkIdx_le : s.blkIdx.toNat ≤ 15
  cv_start : s.blkIdx = 0 → s.cv = iv
  sp_eq : s.sp.toNat = popcount s.chunkCtr

theorem ContextInv.chunk {s : State} (h : ContextInv s) : ChunkInv s := ⟨h.blkIdx_le, h.cv_start, h.sp_eq⟩

theorem ChunkInv.sp_le {s : State} (h : ChunkInv s) : s.sp.toNat ≤ 64 := h.sp_eq ▸ popcount_le _

theorem succ_ne_zero_of_ne_allOnes {c : BitVec 64} (h : c ≠ BitVec.allOnes 64) : c + 1 ≠ 0 :=
  fun e => h ((eq_neg_of_add_eq_zero_left e).trans BitVec.neg_one_eq_allOnes)

/-- Below block 15 the block index counts on, and is not 0 afterwards. -/
theorem blkIdx_succ_toNat {b : BitVec 5} (hle : b.toNat ≤ 15) : (b + 1).toNat = b.toNat + 1 := by
  bv_omega

/-- A block step that completes keeps the chunk's part of the invariants, at a chunk boundary by `msFold_sp`. -/
theorem blockStep_chunkInv {s t : State} (h : ChunkInv s) (ht : blockStep s = .ok t) : ChunkInv t := by
  rcases blockStep_cases s with ⟨hb, e⟩ | ⟨-, hc, e⟩ | ⟨-, -, e⟩
  · rw [e] at ht
    cases ht
    have hle := h.blkIdx_le
    have hne : s.blkIdx.toNat ≠ 15 := fun h15 => hb (BitVec.eq_of_toNat_eq h15)
    have hsucc := blkIdx_succ_toNat hle
    refine ⟨by rw [compressBlock_blkIdx]; omega, fun h0 => ?_, h.sp_eq⟩
    rw [compressBlock_blkIdx] at h0
    rw [h0] at hsucc
    cases hsucc
  · rw [e] at ht
    cases ht
    have hsp := msFold_sp (coreAnswer (blockRequest s)) (s.chunkCtr + 1) (beforeFold s)
      (succ_ne_zero_of_ne_allOnes hc) (by rw [BitVec.add_sub_cancel]; exact h.sp_eq)
    obtain ⟨stk, sp, issued, hf, -⟩ := msFold_frame (coreAnswer (blockRequest s)) (s.chunkCtr + 1) (beforeFold s)
    rw [hf] at hsp ⊢
    exact ⟨by simp [beforeFold], fun _ => rfl, hsp⟩
  · rw [e] at ht
    cases ht

/-- The state a pass of `INGEST` hands to the block step: the buffer filled from `data`, and counted as taken (R131). -/
def fillBuffer (data : List Byte) (s : State) : State :=
  { s with buf := writeBytes s.buf s.bufLen.toNat (data.take (64 - s.bufLen.toNat)), bufLen := 0 }

/-- A pass of the loop of `INGEST` whose block step completes. -/
theorem ingestLoop_pass_ok {fuel : Nat} {data : List Byte} {s u : State} (h : 64 < s.bufLen.toNat + data.length)
    (hb : blockStep (fillBuffer data s) = .ok u) :
    ingestLoop (fuel + 1) data s = ingestLoop fuel (data.drop (64 - s.bufLen.toNat)) u := by
  unfold fillBuffer at hb
  rw [ingestLoop, if_pos h]
  simp only [hb]

/-- A pass whose block step overflows ends the loop (R139). -/
theorem ingestLoop_pass_error {fuel : Nat} {data : List Byte} {s e : State} (h : 64 < s.bufLen.toNat + data.length)
    (hb : blockStep (fillBuffer data s) = .error e) : ingestLoop (fuel + 1) data s = .error e := by
  unfold fillBuffer at hb
  rw [ingestLoop, if_pos h]
  simp only [hb]

theorem fillBuffer_chunkInv {s : State} (data : List Byte) (h : ChunkInv s) : ChunkInv (fillBuffer data s) :=
  ⟨h.blkIdx_le, h.cv_start, h.sp_eq⟩

/-- A pass takes the buffer's bytes away, and the block step puts none back (R142). -/
theorem blockStep_fillBuffer_bufLen {data : List Byte} {s u : State} (hb : blockStep (fillBuffer data s) = .ok u) :
    u.bufLen = 0 := by
  rw [blockStep_frame _ _ (.inl hb)]
  rfl

theorem storeTail_bufLen_toNat {data : List Byte} {s : State} (h : s.bufLen.toNat + data.length ≤ 64) :
    (storeTail data s).bufLen.toNat = s.bufLen.toNat + data.length := by
  rw [storeTail_bufLen, BitVec.toNat_add, BitVec.toNat_ofNat]
  omega

/-- The end of the loop of `INGEST`, on bytes that fit the buffer. -/
theorem storeTail_keeps {data : List Byte} {s t : State} (h : ChunkInv s) (hfit : s.bufLen.toNat + data.length ≤ 64)
    (hempty : s.bufLen.toNat + data.length = 0 → total s = 0) (ht : Except.ok (ε := State) (storeTail data s) = .ok t) :
    ChunkInv t ∧ t.bufLen.toNat ≤ 64 ∧ (t.bufLen = 0 → total t = 0) := by
  cases ht
  have hlen := storeTail_bufLen_toNat hfit
  refine ⟨⟨h.blkIdx_le, h.cv_start, h.sp_eq⟩, by omega, fun h0 => ?_⟩
  have hsum : s.bufLen.toNat + data.length = 0 := by rw [← hlen, h0]; rfl
  have htotal := hempty hsum
  simp only [total, storeTail_chunkCtr, storeTail_blkIdx] at htotal ⊢
  omega

/-- What the loop of `INGEST` makes of the chunk's invariants, with fuel for the bytes that are left: the buffer ends within
its bound, and ends empty only where it began empty and no byte came (R130, R131, R141). -/
theorem ingestLoop_keeps {fuel : Nat} {data : List Byte} {s t : State} (h : ChunkInv s) (hl : s.bufLen.toNat ≤ 64)
    (hfuel : s.bufLen.toNat + data.length ≤ 64 * (fuel + 1))
    (hempty : s.bufLen.toNat + data.length = 0 → total s = 0) (ht : ingestLoop fuel data s = .ok t) :
    ChunkInv t ∧ t.bufLen.toNat ≤ 64 ∧ (t.bufLen = 0 → total t = 0) := by
  induction fuel generalizing data s with
  | zero => exact storeTail_keeps h (by omega) hempty ht
  | succ fuel ih =>
    by_cases hpass : 64 < s.bufLen.toNat + data.length
    · cases hb : blockStep (fillBuffer data s) with
      | error e => rw [ingestLoop_pass_error hpass hb] at ht; cases ht
      | ok u =>
        rw [ingestLoop_pass_ok hpass hb] at ht
        have hu : u.bufLen.toNat = 0 := by rw [blockStep_fillBuffer_bufLen hb]; rfl
        have hrest : (data.drop (64 - s.bufLen.toNat)).length = data.length - (64 - s.bufLen.toNat) := List.length_drop
        exact ih (blockStep_chunkInv (fillBuffer_chunkInv data h) hb) (by omega) (by omega) (by omega) ht
    · rw [ingestLoop_stop _ _ _ (by omega)] at ht
      exact storeTail_keeps h (by omega) hempty ht

/-- From a context that meets the invariants, an `UPDATE` that completes ends in one (R40, R192). -/
theorem ingest_contextInv {data : List Byte} {s t : State} (h : ContextInv s)
    (ht : ingest data { s with st := .accum } = .ok t) : ContextInv t := by
  have hl := h.bufLen_le
  have hempty : s.bufLen.toNat + data.length = 0 → total s = 0 := fun e =>
    h.empty_buf (BitVec.eq_of_toNat_eq (by simpa using (Nat.add_eq_zero_iff.mp e).1))
  obtain ⟨hc, hlen, h0⟩ := ingestLoop_keeps (s := { s with st := .accum })
    ⟨h.blkIdx_le, h.cv_start, h.sp_eq⟩ hl (by omega) hempty ht
  have hst : t.st = .accum := by rw [ingest_frame data _ t (.inl ht)]
  exact ⟨hlen, hc.blkIdx_le, h0, hc.cv_start, hc.sp_eq, fun e => absurd (hst.symm.trans e) (by decide)⟩

end Sys2Proof.Machine

/-! ### The invariants at rest, at reset and in every step (10_state.md R39, R40, 60_exceptions.md R211) -/

namespace Sys2Proof.Machine

/-- The registers of a fresh context meet R40 (R39, R191). -/
theorem contextInv_of_fresh {s : State} (hl : s.bufLen = 0) (hb : s.blkIdx = 0) (hc : s.chunkCtr = 0) (hcv : s.cv = iv)
    (hsp : s.sp = 0) : ContextInv s := by
  have htotal : total s = 0 := by rw [total, hl, hb, hc]; rfl
  exact ⟨by rw [hl]; decide, by rw [hb]; decide, fun _ => htotal, fun _ => hcv, by rw [hsp, hc]; rfl, fun _ => htotal⟩

/-- A step that writes neither `fault` nor its information keeps what R211 says of them. -/
theorem RestInv.of_same_fault {s t : State} (h : RestInv s) (hf : t.fault = s.fault) (hd : t.diag = s.diag)
    (hc : Ready t → ContextInv t) : RestInv t := by
  refine ⟨hc, hf ▸ h.fault_legal, ?_⟩
  rw [hf, hd]
  exact h.fault_info

/-- A latched code: the block accepts no input, and the code is one of R211's. -/
theorem RestInv.of_latched {t : State} (f : Fault) (hf : t.fault = f.code) (hd : t.diag = some f) : RestInv t := by
  refine ⟨fun hr => absurd (hf.symm.trans hr.1) f.code_ne_zero, hf ▸ f.code_le, ?_⟩
  rw [hf, hd]

theorem RestInv.of_final {s t : State} (h : RestInv s) (hf : t.fault = s.fault) (hd : t.diag = s.diag)
    (hst : t.st = .final) : RestInv t :=
  h.of_same_fault hf hd fun hr => absurd hst hr.2

/-- R40 speaks of the context alone: what waits in the streams and at the exposed core's port does not matter. -/
theorem ContextInv.with_streams {s : State} (h : ContextInv s) (cmdIn : List Byte) (coreIn : List Request)
    (coreOut : List Cv) : ContextInv { s with cmdIn := cmdIn, coreIn := coreIn, coreOut := coreOut } :=
  ⟨h.bufLen_le, h.blkIdx_le, h.empty_buf, h.cv_start, h.sp_eq, h.empty_total⟩

/-- Hardware reset meets the invariants in any state, whatever was latched (R240). -/
theorem hardReset_restInv (s : State) : RestInv (hardReset s) :=
  ⟨fun _ => contextInv_of_fresh rfl rfl rfl rfl rfl, Nat.zero_le 5, rfl⟩

/-- An `UPDATE` that completes keeps the invariants (R192): `fault` is not written, and the context is `ingest_contextInv`. -/
theorem ingest_restInv {data rest : List Byte} {s t : State} (h : RestInv s) (hr : Ready s)
    (ht : ingest data { s with cmdIn := rest, st := .accum } = .ok t) : RestInv t := by
  have hc : ContextInv t := ingest_contextInv ((h.context hr).with_streams rest s.coreIn s.coreOut) ht
  have hframe := ingest_frame data _ t (.inl ht)
  exact h.of_same_fault (by rw [hframe]) (by rw [hframe]) fun _ => hc

/-- `FINAL` keeps the invariants: afterwards they ask nothing of the spent context (R177, R193). -/
theorem final_restInv {s : State} (rest : List Byte) (h : RestInv s) :
    RestInv (spendContext (respondDigest { finalize { s with cmdIn := rest } with st := .final })) := by
  obtain ⟨sp, digest, issued, hframe⟩ := finalize_frame { s with cmdIn := rest }
  rw [hframe]
  exact h.of_final rfl rfl rfl

theorem step_restInv {s t : State} (h : RestInv s) (ht : step s = .next t) : RestInv t := by
  rcases step_cases s t ht with ⟨-, rfl⟩ | ⟨-, cmdIn, coreIn, coreOut, rfl⟩ |
    ⟨-, hf, rest, rfl | ⟨f, rfl⟩ | ⟨hst, data, ht | ⟨e, -, rfl⟩⟩ | ⟨-, rfl⟩ | ⟨hst, rfl⟩⟩
  · exact hardReset_restInv s
  · exact h.of_same_fault rfl rfl fun hr => (h.context hr).with_streams _ _ _
  · exact h.of_same_fault rfl rfl fun _ => contextInv_of_fresh rfl rfl rfl rfl rfl
  · exact .of_latched f rfl rfl
  · exact ingest_restInv h ⟨hf, hst⟩ ht
  · exact .of_latched (.counterOverflow e.chunkCtr) rfl rfl
  · exact final_restInv rest h
  · exact h.of_final rfl rfl hst

theorem step_reset {s : State} (h : s.resetReq = true) : step s = .next (hardReset s) := by
  rw [step, if_pos h]

/-! ### `STATUS` as a number (10_state.md R33) -/

theorem zero_append_toNat (n : Nat) {w : Nat} (x : BitVec w) : (0#n ++ x).toNat = x.toNat := by
  rw [BitVec.toNat_append]
  simp

/-- The fault code stands above the four bits that hold the code of `st`. -/
theorem statusWord_toNat (s : State) : (statusWord s).toNat = 2 ^ 4 * s.fault.toNat + s.st.code.toNat := by
  have hsplit : statusWord s = (0#24 ++ s.fault) ++ (0#2 ++ s.st.code) := by
    rw [statusWord, BitVec.append_assoc]
    rfl
  rw [hsplit, BitVec.toNat_append, ← Nat.shiftLeft_add_eq_or_of_lt (0#2 ++ s.st.code).isLt, Nat.shiftLeft_eq,
    zero_append_toNat, zero_append_toNat, Nat.mul_comm]

/-- A field of `STATUS`, `n` bits from bit `k` up. -/
theorem statusWord_field (s : State) (k n : Nat) :
    ((statusWord s).extractLsb' k n).toNat = (2 ^ 4 * s.fault.toNat + s.st.code.toNat) / 2 ^ k % 2 ^ n := by
  rw [BitVec.extractLsb'_toNat, statusWord_toNat, Nat.shiftRight_eq_div_pow]

end Sys2Proof.Machine

/-! ### What no command can read (10_state.md R41, 44_finalizer.md R177, 70_reset_and_hazards.md R241)

`SameVisible` is taken apart into what the host sees (`SameHost`) and, while the block accepts input, the part of the context
that a later command can use (`SameLive`). Each operation of `UPDATE` and `FINAL` takes `SameLive` states to `SameLive` states. -/

namespace Sys2Proof.Machine

/-- The fields of `SameVisible` that the host sees, with no condition. -/
structure SameHost (s u : State) : Prop where
  st : s.st = u.st
  fault : s.fault = u.fault
  cmdIn : s.cmdIn = u.cmdIn
  respOut : s.respOut = u.respOut
  resetReq : s.resetReq = u.resetReq
  coreIn : s.coreIn = u.coreIn
  coreOut : s.coreOut = u.coreOut

/-- Stacks that agree in the valid entries (R29). -/
structure SameStack (s u : State) : Prop where
  sp : s.sp = u.sp
  stk : ∀ i, i < s.sp.toNat → s.stk[i]? = u.stk[i]?

/-- The context registers of `SameVisible`, which it compares while the block accepts input. -/
structure SameLive (s u : State) : Prop where
  bufLen : s.bufLen = u.bufLen
  blkIdx : s.blkIdx = u.blkIdx
  chunkCtr : s.chunkCtr = u.chunkCtr
  cv : s.cv = u.cv
  buf : ∀ i, i < s.bufLen.toNat → s.buf[i]? = u.buf[i]?
  stack : SameStack s u

theorem SameVisible.live {s u : State} (h : SameVisible s u) (hr : Ready s) : SameLive s u :=
  ⟨h.bufLen hr, h.blkIdx hr, h.chunkCtr hr, h.cv hr, h.buf hr, h.sp hr, h.stk hr⟩

/-- `SameVisible` by its parts. -/
theorem SameHost.visible {s u : State} (h : SameHost s u) (hd : s.fault = 0 → s.st = .final → s.digest = u.digest)
    (hl : Ready s → SameLive s u) : SameVisible s u where
  st := h.st
  fault := h.fault
  cmdIn := h.cmdIn
  respOut := h.respOut
  resetReq := h.resetReq
  coreIn := h.coreIn
  coreOut := h.coreOut
  digest := hd
  bufLen hr := (hl hr).bufLen
  blkIdx hr := (hl hr).blkIdx
  chunkCtr hr := (hl hr).chunkCtr
  cv hr := (hl hr).cv
  sp hr := (hl hr).stack.sp
  buf hr := (hl hr).buf
  stk hr := (hl hr).stack.stk

/-- With a fault latched only what the host sees is compared. -/
theorem SameHost.visible_of_fault {s u : State} (h : SameHost s u) (hf : s.fault ≠ 0) : SameVisible s u :=
  h.visible (fun h0 => absurd h0 hf) fun hr => absurd hr.1 hf

/-- In `FINAL`, the digest too (R177). -/
theorem SameHost.visible_of_final {s u : State} (h : SameHost s u) (hst : s.st = .final) (hd : s.digest = u.digest) :
    SameVisible s u :=
  h.visible (fun _ _ => hd) fun hr => absurd hst hr.2

/-- Outside `FINAL`, the context but not the digest (R27). -/
theorem SameHost.visible_of_live {s u : State} (h : SameHost s u) (hst : s.st ≠ .final) (hl : SameLive s u) :
    SameVisible s u :=
  h.visible (fun _ hf => absurd hf hst) fun _ => hl

/-- Streams that stay equal keep `SameVisible`. -/
theorem SameVisible.with_streams {s u : State} (h : SameVisible s u) {cmdIn cmdIn' : List Byte}
    {coreIn coreIn' : List Request} {coreOut coreOut' : List Cv} (hcmd : cmdIn = cmdIn') (hin : coreIn = coreIn')
    (hout : coreOut = coreOut') : SameVisible { s with cmdIn := cmdIn, coreIn := coreIn, coreOut := coreOut }
      { u with cmdIn := cmdIn', coreIn := coreIn', coreOut := coreOut' } :=
  SameHost.visible ⟨h.st, h.fault, hcmd, h.respOut, h.resetReq, hin, hout⟩ h.digest fun hr =>
    have hl := h.live hr
    ⟨hl.bufLen, hl.blkIdx, hl.chunkCtr, hl.cv, hl.buf, hl.stack.sp, hl.stack.stk⟩

/-! ### The merge stack on valid entries -/

theorem msPop_same {s u : State} (h : SameStack s u) (h0 : s.sp ≠ 0) (h64 : s.sp.toNat ≤ 64) :
    (msPop s).1 = (msPop u).1 := by
  have hpos : s.sp.toNat ≠ 0 := fun e => h0 (BitVec.eq_of_toNat_eq e)
  have hs := msPop_fst s h0 h64
  have hu := msPop_fst u (h.sp ▸ h0) (h.sp ▸ h64)
  rw [h.stk _ (by omega), h.sp, ← hu] at hs
  exact Option.some.inj hs

/-- A pop, and the request of the merge it serves, keep the agreement (R152). -/
theorem issue_msPop_sameStack {s u : State} (h : SameStack s u) (h0 : s.sp ≠ 0) (r q : Request) :
    SameStack (issue r (msPop s).2) (issue q (msPop u).2) := by
  refine ⟨by simp [h.sp], fun i hi => ?_⟩
  rw [issue_sp, msPop_sp, sp_pred_toNat _ h0] at hi
  exact h.stk i (by omega)

theorem msPush_sameStack (c : Cv) {s u : State} (h : SameStack s u) (h64 : s.sp.toNat ≤ 64) :
    SameStack (msPush c s) (msPush c u) := by
  refine ⟨by simp [h.sp], fun i hi => ?_⟩
  rw [msPush_sp, sp_succ_toNat _ h64] at hi
  rw [msPush_stk, msPush_stk, ← h.sp, Vector.getElem?_setIfInBounds, Vector.getElem?_setIfInBounds]
  by_cases htop : s.sp.toNat = i
  · rw [if_pos htop, if_pos htop]
  · rw [if_neg htop, if_neg htop, h.stk i (by omega)]

/-- The fold reads valid entries only (R154). -/
theorem msFold_sameStack {c : Cv} {t : BitVec 64} {s u : State} (h : SameStack s u) (h64 : s.sp.toNat ≤ 64) :
    SameStack (msFold c t s) (msFold c t u) := by
  induction hn : s.sp.toNat generalizing c t s u with
  | zero =>
    have h0 : s.sp = 0 := BitVec.eq_of_toNat_eq hn
    rw [msFold_push c t s (.inr h0), msFold_push c t u (.inr (h.sp ▸ h0))]
    exact msPush_sameStack c h h64
  | succ n ih =>
    cases hb : t.getLsbD 0 with
    | true =>
      rw [msFold_push c t s (.inl hb), msFold_push c t u (.inl hb)]
      exact msPush_sameStack c h h64
    | false =>
      have h0 : s.sp ≠ 0 := by intro e; rw [e] at hn; cases hn
      have hpop := issue_msPop_sp_toNat hn
      rw [msFold_merge c t s hb h0, msFold_merge c t u hb (h.sp ▸ h0), ← msPop_same h h0 h64]
      exact ih (issue_msPop_sameStack h h0 _ _) (by rw [hpop]; omega) (hpop _)

/-- The unwind reads valid entries only (R158). -/
theorem msUnwind_same {c : Cv} {s u : State} (h : SameStack s u) (h64 : s.sp.toNat ≤ 64) :
    (msUnwind c s).1 = (msUnwind c u).1 := by
  induction hn : s.sp.toNat generalizing c s u with
  | zero =>
    have h0 : s.sp = 0 := BitVec.eq_of_toNat_eq hn
    rw [msUnwind_stop c s h0, msUnwind_stop c u (h.sp ▸ h0)]
  | succ n ih =>
    have h0 : s.sp ≠ 0 := by intro e; rw [e] at hn; cases hn
    have hpop := issue_msPop_sp_toNat hn
    have hroot : (msPop s).2.sp = (msPop u).2.sp := by rw [msPop_sp, msPop_sp, h.sp]
    rw [msUnwind_step c s h0, msUnwind_step c u (h.sp ▸ h0), ← msPop_same h h0 h64, ← hroot]
    exact ih (issue_msPop_sameStack h h0 _ _) (by rw [hpop]; omega) (hpop _)

/-! ### `UPDATE` on the live context -/

/-- Two answers of an operation that may overflow: both completed, in the same live context, or both overflowed. -/
def SameResult : Except State State → Except State State → Prop
  | .ok s, .ok u => SameLive s u
  | .error _, .error _ => True
  | _, _ => False

theorem compressBlock_same {s u : State} (h : SameLive s u) (hbuf : s.buf = u.buf) :
    SameLive (compressBlock s) (compressBlock u) := by
  have hreq : blockRequest s = blockRequest u := by
    rw [blockRequest, blockRequest, h.cv, hbuf, h.chunkCtr, h.blkIdx]
  exact ⟨h.bufLen, by simp [h.blkIdx], h.chunkCtr, by simp [hreq], h.buf, h.stack.sp, h.stack.stk⟩

/-- A chunk completion (R134); the fold may need every entry, so `sp` has to be within the stack. -/
theorem foldChunk_same {s u : State} (h : SameLive s u) (h64 : s.sp.toNat ≤ 64) :
    SameLive (foldChunk s) (foldChunk u) := by
  have hstack : SameStack (msFold s.cv (inc64 s.chunkCtr) { s with chunkCtr := inc64 s.chunkCtr })
      (msFold u.cv (inc64 u.chunkCtr) { u with chunkCtr := inc64 u.chunkCtr }) := by
    rw [← h.cv, ← h.chunkCtr]
    exact msFold_sameStack ⟨h.stack.sp, h.stack.stk⟩ h64
  obtain ⟨stk, sp, issued, hs, -⟩ := msFold_frame s.cv (inc64 s.chunkCtr) { s with chunkCtr := inc64 s.chunkCtr }
  obtain ⟨stk', sp', issued', hu, -⟩ := msFold_frame u.cv (inc64 u.chunkCtr) { u with chunkCtr := inc64 u.chunkCtr }
  simp only [foldChunk]
  rw [hs, hu] at hstack ⊢
  exact ⟨h.bufLen, h.blkIdx, congrArg inc64 h.chunkCtr, rfl, h.buf, hstack.sp, hstack.stk⟩

theorem completeChunk_same {s u : State} (h : SameLive s u) (h64 : s.sp.toNat ≤ 64) :
    SameResult (completeChunk s) (completeChunk u) := by
  rw [completeChunk, completeChunk, ← h.chunkCtr]
  split
  · trivial
  · exact foldChunk_same h h64

theorem finishBlock_same {s u : State} (h : SameLive s u) (h64 : s.sp.toNat ≤ 64) :
    SameResult (finishBlock s) (finishBlock u) := by
  rw [finishBlock, finishBlock, ← h.blkIdx]
  split
  · exact completeChunk_same ⟨h.bufLen, rfl, h.chunkCtr, h.cv, h.buf, h.stack.sp, h.stack.stk⟩ h64
  · exact h

theorem blockStep_same {s u : State} (h : SameLive s u) (hbuf : s.buf = u.buf) (h64 : s.sp.toNat ≤ 64) :
    SameResult (blockStep s) (blockStep u) :=
  finishBlock_same (compressBlock_same h hbuf) h64

/-- Bytes written behind bytes that agree. -/
theorem writeBytes_same {a b : Buffer} {n : Nat} (h : ∀ i : Nat, i < n → a[i]? = b[i]?) (data : List Byte) (i : Nat)
    (hi : i < n + data.length) : (writeBytes a n data)[i]? = (writeBytes b n data)[i]? := by
  by_cases h64 : i < 64
  · rw [writeBytes_getElem? a n data i h64, writeBytes_getElem? b n data i h64]
    by_cases hnew : n ≤ i ∧ i < n + data.length
    · rw [if_pos hnew, if_pos hnew]
    · rw [if_neg hnew, if_neg hnew, h i (by omega)]
  · rw [Vector.getElem?_eq_none (by omega), Vector.getElem?_eq_none (by omega)]

/-- A pass fills the buffer to its last byte, so that no stale byte reaches the core (R131). -/
theorem fillBuffer_buf_same {s u : State} (h : SameLive s u) {data : List Byte}
    (hpass : 64 < s.bufLen.toNat + data.length) : (fillBuffer data s).buf = (fillBuffer data u).buf := by
  apply Vector.ext
  intro i hi
  have hbyte := writeBytes_same h.buf (data.take (64 - s.bufLen.toNat)) i (by rw [List.length_take]; omega)
  rw [Vector.getElem?_eq_getElem hi, Vector.getElem?_eq_getElem hi] at hbyte
  simp only [fillBuffer, ← h.bufLen]
  exact Option.some.inj hbyte

theorem fillBuffer_same {s u : State} (h : SameLive s u) (data : List Byte) :
    SameLive (fillBuffer data s) (fillBuffer data u) :=
  ⟨rfl, h.blkIdx, h.chunkCtr, h.cv, fun _ hi => absurd hi (Nat.not_lt_zero _), h.stack.sp, h.stack.stk⟩

theorem storeTail_same {s u : State} (h : SameLive s u) (data : List Byte) :
    SameLive (storeTail data s) (storeTail data u) := by
  refine ⟨by simp [h.bufLen], h.blkIdx, h.chunkCtr, h.cv, fun i hi => ?_, h.stack.sp, h.stack.stk⟩
  rw [storeTail_bufLen, BitVec.toNat_add, BitVec.toNat_ofNat] at hi
  rw [storeTail_buf, storeTail_buf, ← h.bufLen]
  exact writeBytes_same h.buf data i (by omega)

theorem ingestLoop_same {fuel : Nat} {data : List Byte} {s u : State} (h : SameLive s u) (hs : ChunkInv s) :
    SameResult (ingestLoop fuel data s) (ingestLoop fuel data u) := by
  induction fuel generalizing data s u with
  | zero => exact storeTail_same h data
  | succ fuel ih =>
    by_cases hpass : 64 < s.bufLen.toNat + data.length
    · have hpass' : 64 < u.bufLen.toNat + data.length := h.bufLen ▸ hpass
      have hstep : SameResult (blockStep (fillBuffer data s)) (blockStep (fillBuffer data u)) :=
        blockStep_same (fillBuffer_same h data) (fillBuffer_buf_same h hpass) hs.sp_le
      cases hb : blockStep (fillBuffer data s) <;> cases hb' : blockStep (fillBuffer data u) <;>
        rw [hb, hb'] at hstep
      case ok.ok s' u' =>
        rw [ingestLoop_pass_ok hpass hb, ingestLoop_pass_ok hpass' hb', ← h.bufLen]
        exact ih hstep (blockStep_chunkInv (fillBuffer_chunkInv data hs) hb)
      case error.error e e' =>
        rw [ingestLoop_pass_error hpass hb, ingestLoop_pass_error hpass' hb']
        trivial
      case ok.error => exact hstep.elim
      case error.ok => exact hstep.elim
    · rw [ingestLoop_stop _ _ _ (by omega), ingestLoop_stop _ _ _ (by rw [← h.bufLen]; omega)]
      exact storeTail_same h data

theorem ingest_same {data : List Byte} {s u : State} (h : SameLive s u) (hs : ChunkInv s) :
    SameResult (ingest data s) (ingest data u) := ingestLoop_same h hs

/-! ### `FINAL` on the live context -/

/-- The digest depends on the live context alone: the padding takes the stale bytes away, and the unwind reads the valid
entries (R171 to R176). -/
theorem finalize_digest_same {s u : State} (h : SameLive s u) (h64 : s.sp.toNat ≤ 64) :
    (finalize s).digest = (finalize u).digest := by
  have hpad : padBuffer s.buf s.bufLen.toNat = padBuffer u.buf u.bufLen.toNat := by
    rw [← h.bufLen]
    exact padBuffer_congr _ _ _ h.buf
  have hreq : finalRequest (padded s) = finalRequest (padded u) := by
    simp only [finalRequest, padded]
    rw [hpad, h.cv, h.chunkCtr, h.bufLen, h.blkIdx, h.stack.sp]
  rw [finalize_eq, finalize_eq, hreq]
  exact congrArg leStore8 (msUnwind_same ⟨h.stack.sp, h.stack.stk⟩ h64)

/-! ### Steps of the two states, side by side -/

/-- A next state of the first answer is matched by one of the second. -/
def Matched (a b : Answer) : Prop := ∀ s', a = .next s' → ∃ u', b = .next u' ∧ SameVisible s' u'

theorem Matched.next {s u : State} (h : SameVisible s u) : Matched (.next s) (.next u) := by
  rintro s' ⟨⟩
  exact ⟨u, rfl, h⟩

theorem Matched.refused {r : Refusal} {b : Answer} : Matched (.refused r) b := nofun

/-- The gate lets both states through or neither (R196): a command has to be followed with no fault latched only. -/
theorem Matched.of_open {i : Instr} {bytes : List Byte} (hi : encode i = .stream bytes) {s u : State}
    (h : SameVisible s u) (hopen : s.fault = 0 → u.fault = 0 → Matched (exec i s) (exec i u)) :
    Matched (exec i s) (exec i u) := by
  by_cases hf : s.fault = 0
  · exact hopen hf (h.fault ▸ hf)
  · rw [exec_shut s i bytes hf hi, exec_shut u i bytes (h.fault ▸ hf) hi]
    exact .next h

theorem freshContext_live (s u : State) : SameLive (freshContext s) (freshContext u) :=
  ⟨by simp, by simp, by simp, by simp, by simp, by simp, by simp⟩

theorem hardReset_live (s u : State) : SameLive (hardReset s) (hardReset u) :=
  ⟨by simp, by simp, by simp, by simp, by simp, by simp, by simp⟩

theorem freshContext_visible {s u : State} (h : SameVisible s u) : SameVisible (freshContext s) (freshContext u) :=
  SameHost.visible_of_live ⟨by simp, h.fault, h.cmdIn, h.respOut, h.resetReq, h.coreIn, h.coreOut⟩ (by simp)
    (freshContext_live s u)

theorem hardReset_visible {s u : State} (h : SameVisible s u) : SameVisible (hardReset s) (hardReset u) :=
  SameHost.visible_of_live ⟨by simp, by simp, by simp, h.respOut, by simp, h.coreIn, h.coreOut⟩ (by simp)
    (hardReset_live s u)

/-- A fault entry hides the context from then on (R219). -/
theorem takeFault_visible (f : Fault) {s u : State} (h : SameVisible s u) :
    SameVisible (takeFault f s) (takeFault f u) :=
  SameHost.visible_of_fault ⟨h.st, rfl, h.cmdIn, h.respOut, h.resetReq, h.coreIn, h.coreOut⟩ f.code_ne_zero

theorem ingest_host {data : List Byte} {s u t v : State} (h : SameHost s u)
    (hs : ingest data s = .ok t ∨ ingest data s = .error t) (hu : ingest data u = .ok v ∨ ingest data u = .error v) :
    SameHost t v := by
  rw [ingest_frame data s t hs, ingest_frame data u v hu]
  exact ⟨h.st, h.fault, h.cmdIn, h.respOut, h.resetReq, h.coreIn, h.coreOut⟩

/-- The overflow hides the context from then on; `st` keeps its value from before the command (R190, R215). -/
theorem takeOverflow_visible (before : Phase) {s u : State} (h : SameHost s u) :
    SameVisible (takeOverflow before s) (takeOverflow before u) :=
  SameHost.visible_of_fault ⟨by simp, by simp, h.cmdIn, h.respOut, h.resetReq, h.coreIn, h.coreOut⟩ (by simp)

/-- An `UPDATE` past the gate, outside `FINAL`: both states complete it or both overflow. -/
theorem exec_update_live_matched (data : List Byte) {s u : State} (hs : RestInv s) (h : SameVisible s u)
    (hf : s.fault = 0) (hst : s.st ≠ .final) : Matched (exec (.update data) s) (exec (.update data) u) := by
  have hf' : u.fault = 0 := h.fault ▸ hf
  have hst' : u.st ≠ .final := h.st ▸ hst
  have hl := h.live ⟨hf, hst⟩
  have hc := (hs.context ⟨hf, hst⟩).chunk
  have hhost : SameHost { s with st := .accum } { u with st := .accum } :=
    ⟨rfl, h.fault, h.cmdIn, h.respOut, h.resetReq, h.coreIn, h.coreOut⟩
  have hresult : SameResult (ingest data { s with st := .accum }) (ingest data { u with st := .accum }) :=
    ingest_same ⟨hl.bufLen, hl.blkIdx, hl.chunkCtr, hl.cv, hl.buf, hl.stack.sp, hl.stack.stk⟩
      ⟨hc.blkIdx_le, hc.cv_start, hc.sp_eq⟩
  cases hi : ingest data { s with st := .accum } <;> cases hi' : ingest data { u with st := .accum } <;>
    rw [hi, hi'] at hresult
  case ok.ok t v =>
    rw [exec_update_ok s t data hf hst hi, exec_update_ok u v data hf' hst' hi']
    have ht : t.st ≠ .final := by rw [ingest_frame data _ t (.inl hi)]; nofun
    exact .next ((ingest_host hhost (.inl hi) (.inl hi')).visible_of_live ht hresult)
  case error.error e e' =>
    rw [exec_update_error s e data hf hst hi, exec_update_error u e' data hf' hst' hi', ← h.st]
    exact .next (takeOverflow_visible s.st (ingest_host hhost (.inr hi) (.inr hi')))
  case ok.error => exact hresult.elim
  case error.ok => exact hresult.elim

/-- A `FINAL` past the gate, outside `FINAL`: the response is the digest, which the live context decides. -/
theorem exec_final_live_matched {s u : State} (hs : RestInv s) (h : SameVisible s u) (hf : s.fault = 0)
    (hst : s.st ≠ .final) : Matched (exec .final s) (exec .final u) := by
  rw [exec_final s hf hst, exec_final u (h.fault ▸ hf) (h.st ▸ hst)]
  have hdigest := finalize_digest_same (h.live ⟨hf, hst⟩) (hs.context ⟨hf, hst⟩).chunk.sp_le
  obtain ⟨sp, digest, issued, hframe⟩ := finalize_frame s
  obtain ⟨sp', digest', issued', hframe'⟩ := finalize_frame u
  rw [hframe, hframe'] at hdigest ⊢
  obtain rfl : digest = digest' := hdigest
  exact .next (SameHost.visible_of_final
    ⟨by simp, h.fault, h.cmdIn, congrArg (· ++ digest.toList) h.respOut, h.resetReq, h.coreIn, h.coreOut⟩
    (by simp) (by simp))

/-- An `RDDIG` past the gate, in `FINAL`, responds the latched digest, which `SameVisible` compares there. -/
theorem respondDigest_visible {s u : State} (h : SameVisible s u) (hf : s.fault = 0) (hst : s.st = .final) :
    SameVisible (respondDigest s) (respondDigest u) := by
  have hd := h.digest hf hst
  have hresp : (respondDigest s).respOut = (respondDigest u).respOut := by
    rw [respondDigest_respOut, respondDigest_respOut, h.respOut, hd]
  exact SameHost.visible_of_final ⟨h.st, h.fault, h.cmdIn, hresp, h.resetReq, h.coreIn, h.coreOut⟩ hst hd

/-- The four commands (R191 to R194). -/
theorem exec_command_matched {i : Instr} {s u : State} (hs : RestInv s) (h : SameVisible s u)
    (hi : i = .init ∨ (∃ data, i = .update data) ∨ i = .final ∨ i = .rddig) : Matched (exec i s) (exec i u) := by
  rcases hi with rfl | ⟨data, rfl⟩ | rfl | rfl
  · refine .of_open rfl h fun hf hf' => ?_
    rw [exec_init s hf, exec_init u hf']
    exact .next (freshContext_visible h)
  · refine .of_open rfl h fun hf hf' => ?_
    by_cases hst : s.st = .final
    · rw [exec_update_final s data hf hst, exec_update_final u data hf' (h.st ▸ hst)]
      exact .next (takeFault_visible _ h)
    · exact exec_update_live_matched data hs h hf hst
  · refine .of_open rfl h fun hf hf' => ?_
    by_cases hst : s.st = .final
    · rw [exec_final_final s hf hst, exec_final_final u hf' (h.st ▸ hst)]
      exact .next (takeFault_visible _ h)
    · exact exec_final_live_matched hs h hf hst
  · refine .of_open rfl h fun hf hf' => ?_
    by_cases hst : s.st = .final
    · rw [exec_rddig s hf hst, exec_rddig u hf' (h.st ▸ hst)]
      exact .next (respondDigest_visible h hf hst)
    · rw [exec_rddig_early s hf hst, exec_rddig_early u hf' (h.st ▸ hst), ← h.st]
      exact .next (takeFault_visible _ h)

theorem reservedByte_matched (x : Byte) {s u : State} (h : SameVisible s u) :
    Matched (reservedByte x s) (reservedByte x u) := by
  by_cases hf : s.fault = 0
  · rw [reservedByte, reservedByte, gate_open s _ hf, gate_open u _ (h.fault ▸ hf)]
    exact .next (takeFault_visible _ h)
  · rw [reservedByte, reservedByte, gate_shut s _ hf, gate_shut u _ (h.fault ▸ hf)]
    exact .next h

theorem serveRequest_matched (d : BitVec 4) (a : CoreArgs) {s u : State} (h : SameVisible s u) :
    Matched (serveRequest d a s) (serveRequest d a u) := by
  by_cases hb : a.b.toNat ≤ 64
  · rw [serveRequest_legal d a s hb, serveRequest_legal d a u hb]
    exact .next (h.with_streams h.cmdIn h.coreIn (congrArg (· ++ [coreAnswer ⟨a, d⟩]) h.coreOut))
  · rw [serveRequest_illegal d a s (by omega)]
    exact .refused

theorem stepRequest_matched (r : Request) (later : List Request) {s u : State} (h : SameVisible s u) :
    Matched (stepRequest r later s) (stepRequest r later u) := by
  rw [stepRequest, stepRequest]
  cases hi : decodeRequest r with
  | none => exact .refused
  | some i =>
    dsimp only
    rw [exec_request r i _ hi, exec_request r i _ hi]
    exact serveRequest_matched r.d r.args (h.with_streams h.cmdIn rfl h.coreOut)

theorem stepCommand_matched {s u : State} (hs : RestInv s) (h : SameVisible s u) :
    Matched (stepCommand s) (stepCommand u) := by
  rw [stepCommand, stepCommand, ← h.cmdIn]
  have hrest (rest : List Byte) : SameVisible { s with cmdIn := rest } { u with cmdIn := rest } :=
    h.with_streams rfl h.coreIn h.coreOut
  cases hd : decodeStream s.cmdIn with
  | instr i rest =>
    have hs' : RestInv { s with cmdIn := rest } :=
      hs.of_same_fault rfl rfl fun hr => (hs.context hr).with_streams rest s.coreIn s.coreOut
    exact exec_command_matched hs' (hrest rest) (decodeStream_command _ i rest hd)
  | reserved x rest => exact reservedByte_matched x (hrest rest)
  | incomplete => exact .next h
  | illegalRequest r => exact .next h

theorem step_matched {s u : State} (hs : RestInv s) (h : SameVisible s u) : Matched (step s) (step u) := by
  rw [step, step, ← h.resetReq, ← h.coreIn]
  split
  · exact .next (hardReset_visible h)
  · cases s.coreIn with
    | nil => exact stepCommand_matched hs h
    | cons r later => exact stepRequest_matched r later h

end Sys2Proof.Machine

/-! ### The obligations on the state and on every step -/

section

open Sys2Proof Sys2Proof.Machine

/-- Settles O52: the cases of `step_cases`; the one with content is an `UPDATE` that completes, where the loop of ingest keeps
`ChunkInv` through every block step. -/
theorem stepKeepsTheInvariants : Obligations.StepKeepsTheInvariants := by
  unfold Obligations.StepKeepsTheInvariants
  intro s t h ht
  exact step_restInv h ht

/-- Settles O55: the two steps take the same branch, since all that decides it is visible, and `step_matched` follows each. -/
theorem hiddenStateIsUnobservable : Obligations.HiddenStateIsUnobservable := by
  unfold Obligations.HiddenStateIsUnobservable
  intro s u s' hs h hstep
  exact step_matched hs h s' hstep

/-- Settles O51: right after reset the registers are those of a fresh context, and nothing has been issued. -/
theorem resetSatisfiesTheInvariants : Obligations.ResetSatisfiesTheInvariants := by
  unfold Obligations.ResetSatisfiesTheInvariants
  refine ⟨⟨fun _ => contextInv_of_fresh rfl rfl rfl rfl rfl, by decide, rfl⟩, ⟨?_, rfl, fun h => nomatch h⟩,
    ⟨fun _ => rfl, fun _ => rfl⟩⟩
  intro r hr
  exact absurd hr List.not_mem_nil

/-- Settles O27: with a fault latched the only cases of `step_cases` are a reset and a step that moves the streams alone. -/
theorem onlyResetLeavesTheFault : Obligations.OnlyResetLeavesTheFault := by
  unfold Obligations.OnlyResetLeavesTheFault
  intro s t hf ht
  rcases step_cases s t ht with ⟨hr, rfl⟩ | ⟨hr, cmdIn, coreIn, coreOut, rfl⟩ | ⟨-, hf', -⟩
  · exact ⟨fun _ => hardReset_fault s, fun hr' => absurd (hr.symm.trans hr') (by decide)⟩
  · exact ⟨fun hr' => absurd (hr.symm.trans hr') (by decide), fun _ => rfl⟩
  · exact absurd hf' hf

/-- Settles O9: every register of R39 read off `State.reset`. -/
theorem resetStateHoldsTheStatedValues : Obligations.ResetStateHoldsTheStatedValues := by
  unfold Obligations.ResetStateHoldsTheStatedValues
  exact ⟨rfl, rfl, rfl, rfl, rfl, rfl, rfl, rfl⟩

/-- Settles O11: with no fault latched `INIT` is `freshContext`, whose fields are known. -/
theorem initGivesAFreshContext : Obligations.InitGivesAFreshContext := by
  unfold Obligations.InitGivesAFreshContext
  intro s hf
  exact ⟨freshContext s, exec_init s hf, by simp [hf]⟩

/-- Settles O10: the step is `hardReset`, and `INIT` on its fault-free result is `freshContext`. -/
theorem hardwareResetGivesAFreshContext : Obligations.HardwareResetGivesAFreshContext := by
  unfold Obligations.HardwareResetGivesAFreshContext
  intro s hr
  exact ⟨hardReset s, freshContext (hardReset s), step_reset hr, exec_init _ (hardReset_fault s), by simp⟩

/-- Settles O25, field by field from `STATUS` as a number. -/
theorem statusWordFields : Obligations.StatusWordFields := by
  unfold Obligations.StatusWordFields
  intro s
  have hcode := s.st.code.isLt
  have hfault := s.fault.isLt
  have hst : (statusWord s).extractLsb' 0 2 = s.st.code := BitVec.eq_of_toNat_eq (by rw [statusWord_field]; omega)
  refine ⟨?_, ?_, ?_, ?_⟩
  · rw [hst]
    cases s.st <;> rfl
  · exact BitVec.eq_of_toNat_eq (by rw [statusWord_field]; change _ = 0; omega)
  · exact BitVec.eq_of_toNat_eq (by rw [statusWord_field]; omega)
  · exact BitVec.eq_of_toNat_eq (by rw [statusWord_field]; change _ = 0; omega)

/-- Settles O31: a finite table, every entry checked. -/
theorem scheduleRowsArePermutations : Obligations.ScheduleRowsArePermutations := by
  unfold Obligations.ScheduleRowsArePermutations
  decide

end

/-! ### The obligations on the serialiser (20_memory.md R51) -/

section

open Sys2Proof Sys2Proof.Machine

/-- Settles O35: word `i` is the word of the block's bytes `4i` to `4i + 3`, whose value is `leWord_toNat`. -/
theorem loadIsLittleEndian : Obligations.LoadIsLittleEndian := by
  unfold Obligations.LoadIsLittleEndian
  intro B i
  rw [Fin.getElem_fin, leLoad16_getElem B i i.isLt, leWord_toNat]

end

/-! ### The decoder and the encoder, case by case (30_encoding.md R70 to R75, R79 to R81) -/

namespace Sys2Proof

@[simp] theorem decodeStream_nil : decodeStream [] = .incomplete := rfl
@[simp] theorem decodeStream_init (s : List Byte) : decodeStream (0x00 :: s) = .instr .init s := rfl
@[simp] theorem decodeStream_update (s : List Byte) : decodeStream (0x01 :: s) = decodeUpdate s := rfl
@[simp] theorem decodeStream_final (s : List Byte) : decodeStream (0x02 :: s) = .instr .final s := rfl
@[simp] theorem decodeStream_rddig (s : List Byte) : decodeStream (0x03 :: s) = .instr .rddig s := rfl

theorem decodeStream_reserved {x : Byte} (h : rsvdField x ≠ 0) (s : List Byte) :
    decodeStream (x :: s) = .reserved x s := by
  rw [decodeStream, if_pos h]

/-- A first byte that is not reserved selects one of the four commands (R71, R73). -/
theorem eq_selector_of_rsvdField_eq_zero {x : Byte} (h : rsvdField x = 0) : x = 0x00 ∨ x = 0x01 ∨ x = 0x02 ∨ x = 0x03 := by
  have hlt := (rsvdField_eq_zero_iff x).mp h
  bv_omega

/-- An `UPDATE` whose bytes have not all come yet: in `LEN`, or in the payload (R75). -/
theorem decodeUpdate_incomplete {s : List Byte} (h : s.length < 8 + leNat (s.take 8)) : decodeUpdate s = .incomplete := by
  rw [decodeUpdate]
  by_cases h8 : s.length < 8
  · rw [if_pos h8]
  · have hbody : (s.drop 8).length < leNat (s.take 8) := by rw [List.length_drop]; omega
    rw [if_neg h8, if_pos hbody]

/-- An `UPDATE` whose `LEN` and payload have come (R72). -/
theorem decodeUpdate_whole {s : List Byte} (h : 8 + leNat (s.take 8) ≤ s.length) : decodeUpdate s =
    .instr (.update ((s.drop 8).take (leNat (s.take 8)))) ((s.drop 8).drop (leNat (s.take 8))) := by
  have hbody : ¬ (s.drop 8).length < leNat (s.take 8) := by rw [List.length_drop]; omega
  rw [decodeUpdate, if_neg (by omega), if_neg hbody]

/-- The bytes the encoder writes after `0x01` are read back, with whatever follows them left over (R72). -/
theorem decodeUpdate_encoded {data : List Byte} (hfits : data.length < 2 ^ 64) (rest : List Byte) :
    decodeUpdate (leBytes 8 data.length ++ (data ++ rest)) = .instr (.update data) rest := by
  have hheader : (leBytes 8 data.length).length = 8 := leBytes_length 8 _
  have hlen : leNat (leBytes 8 data.length) = data.length := by rw [leNat_leBytes]; exact Nat.mod_eq_of_lt hfits
  rw [decodeUpdate_whole] <;> rw [List.take_left' hheader, hlen]
  · rw [List.drop_left' hheader, List.take_left, List.drop_left]
  · simp only [List.length_append, hheader]
    omega

/-- What is read as an `UPDATE` is the encoding of its payload: eight bytes of `LEN`, the payload, and the rest (R72). -/
theorem decodeUpdate_eq_instr {s : List Byte} {i : Instr} {rest : List Byte} (h : decodeUpdate s = .instr i rest) :
    ∃ data, i = .update data ∧ data.length < 2 ^ 64 ∧ s = leBytes 8 data.length ++ (data ++ rest) := by
  rcases Nat.lt_or_ge s.length (8 + leNat (s.take 8)) with hshort | hwhole
  · rw [decodeUpdate_incomplete hshort] at h
    cases h
  · rw [decodeUpdate_whole hwhole] at h
    cases h
    have hheader : (s.take 8).length = 8 := List.length_take_of_le (by omega)
    have hlen : ((s.drop 8).take (leNat (s.take 8))).length = leNat (s.take 8) :=
      List.length_take_of_le (by rw [List.length_drop]; omega)
    have hlt := leNat_lt (s.take 8)
    have hle := leBytes_leNat (s.take 8)
    rw [hheader] at hlt hle
    exact ⟨_, rfl, hlen.trans_lt hlt, by rw [hlen, hle, List.take_append_drop, List.take_append_drop]⟩

/-- A command followed by any bytes decodes to itself, and leaves those bytes. -/
theorem decodeStream_encode {i : Instr} {bytes : List Byte} (hwf : i.wf = true) (h : encode i = .stream bytes)
    (rest : List Byte) : decodeStream (bytes ++ rest) = .instr i rest := by
  cases i with
  | init => cases h; exact decodeStream_init rest
  | update data =>
    cases h
    rw [encodeUpdate, List.append_assoc, List.cons_append, decodeStream_update]
    exact decodeUpdate_encoded (of_decide_eq_true hwf) rest
  | final => cases h; exact decodeStream_final rest
  | rddig => cases h; exact decodeStream_rddig rest
  | _ => cases h

/-- Each request form is selected by the flag set it is encoded with (R81). -/
theorem decodeRequest_encode {i : Instr} {r : Request} (h : encode i = .port r) : decodeRequest r = some i := by
  cases i <;> cases h <;> rfl

theorem decode_encode {i : Instr} (hwf : i.wf = true) : decode (encode i) = .instr i [] := by
  cases h : encode i with
  | stream bytes =>
    rw [decode, ← List.append_nil bytes]
    exact decodeStream_encode hwf h []
  | port r => rw [decode, decodeRequest_encode h]

/-- What is read from the stream is well-formed, and was read from its encoding. -/
theorem decodeStream_eq_instr {s : List Byte} {i : Instr} {rest : List Byte} (h : decodeStream s = .instr i rest) :
    i.wf = true ∧ ∃ bytes, encode i = .stream bytes ∧ s = bytes ++ rest := by
  cases s with
  | nil => cases h
  | cons x s =>
    by_cases hx : rsvdField x = 0
    · rcases eq_selector_of_rsvdField_eq_zero hx with rfl | rfl | rfl | rfl
      · cases h; exact ⟨rfl, _, rfl, rfl⟩
      · obtain ⟨data, rfl, hfits, rfl⟩ := decodeUpdate_eq_instr h
        exact ⟨decide_eq_true hfits, _, rfl, by simp [encodeUpdate]⟩
      · cases h; exact ⟨rfl, _, rfl, rfl⟩
      · cases h; exact ⟨rfl, _, rfl, rfl⟩
    · rw [decodeStream_reserved hx] at h
      cases h

namespace Machine

/-- With no reset asserted and no request waiting, a step is a command of the stream (R70, log 2). -/
theorem step_stream {s : State} (hr : s.resetReq = false) (hin : s.coreIn = []) : step s = stepCommand s := by
  simp [step, hr, hin]

theorem stepCommand_instr {s : State} {i : Instr} {rest : List Byte} (h : decodeStream s.cmdIn = .instr i rest) :
    stepCommand s = exec i { s with cmdIn := rest } := by
  rw [stepCommand, h]

theorem stepCommand_incomplete {s : State} (h : decodeStream s.cmdIn = .incomplete) : stepCommand s = .next s := by
  rw [stepCommand, h]

end Machine
end Sys2Proof

/-! ### The obligations on the encoding and on the step's decoding -/

section

open Sys2Proof Sys2Proof.Machine

/-- Settles O1: `decode_encode`, and for a command with bytes after it `decodeStream_encode`. -/
theorem decodeOfEncodeIsTheInstruction : Obligations.DecodeOfEncodeIsTheInstruction := by
  unfold Obligations.DecodeOfEncodeIsTheInstruction
  intro i hwf
  exact ⟨decode_encode hwf, fun bytes rest h => decodeStream_encode hwf h rest⟩

/-- Settles O2, by the first byte; an `UPDATE` by `decodeUpdate_eq_instr`. -/
theorem decodedCommandHasOneEncoding : Obligations.DecodedCommandHasOneEncoding := by
  unfold Obligations.DecodedCommandHasOneEncoding
  intro s i rest h
  exact decodeStream_eq_instr h

/-- Settles O3: a finite table over `d`; the operands are carried along. -/
theorem requestFormsAreSelectedByFlags : Obligations.RequestFormsAreSelectedByFlags := by
  unfold Obligations.RequestFormsAreSelectedByFlags
  intro a
  refine ⟨rfl, rfl, rfl, rfl, rfl, rfl, rfl, rfl, fun d hd => ?_⟩
  simp only [List.mem_cons, List.not_mem_nil, or_false] at hd
  rcases hd with rfl | rfl | rfl | rfl | rfl | rfl | rfl | rfl <;> rfl

/-- Settles O4: thirteen fixed streams, decoded. -/
theorem vectorWordsDecodeAsWritten : Obligations.VectorWordsDecodeAsWritten := by
  unfold Obligations.VectorWordsDecodeAsWritten
  decide

/-- Settles O5: with nothing before the stream to serve, the step is the command that the stream begins with. -/
theorem stepRunsTheDecodedCommand : Obligations.StepRunsTheDecodedCommand := by
  unfold Obligations.StepRunsTheDecodedCommand
  intro s i rest hr hin hd
  rw [step_stream hr hin, stepCommand_instr hd]

/-- Settles O8: each of the three streams decodes to no whole command. -/
theorem incompleteCommandTakesNoStep : Obligations.IncompleteCommandTakesNoStep := by
  unfold Obligations.IncompleteCommandTakesNoStep
  intro s hr hin hstream
  rw [step_stream hr hin]
  refine stepCommand_incomplete ?_
  rcases hstream with hnil | ⟨tail, htail, hshort⟩
  · rw [hnil, decodeStream_nil]
  · rw [htail, decodeStream_update]
    exact decodeUpdate_incomplete (by omega)

end

/-! ### The requests the block issues (30_encoding.md R81, 40_compression_core.md R107, 44_finalizer.md R178)

Until `FINAL` the log holds plain requests only: legal forms without `ROOT`. `FINAL` adds plain ones and then the root. -/

namespace Sys2Proof.Machine

/-- A legal request that does not carry `ROOT`. -/
def PlainRequest (r : Request) : Prop := LegalForm r ∧ hasRoot r = false

/-- Every request issued so far is plain. -/
def PlainLog (s : State) : Prop := ∀ r ∈ s.coreLog, PlainRequest r

theorem countP_hasRoot_of_plain {log : List Request} (h : ∀ r ∈ log, PlainRequest r) : log.countP hasRoot = 0 :=
  List.countP_eq_zero.mpr fun r hr => by simp [(h r hr).2]

theorem RequestInv.plainLog {s : State} (h : RequestInv s) (hst : s.st ≠ .final) : PlainLog s := by
  have hroots := h.roots
  rw [if_neg hst, List.countP_eq_zero] at hroots
  exact fun r hr => ⟨h.legal r hr, Bool.eq_false_of_not_eq_true (hroots r hr)⟩

theorem PlainLog.requestInv {s : State} (h : PlainLog s) (hst : s.st ≠ .final) : RequestInv s :=
  ⟨fun r hr => (h r hr).1, by rw [countP_hasRoot_of_plain h, if_neg hst], fun hst' => absurd hst' hst⟩

/-- After `FINAL`: a root behind plain requests. -/
theorem RequestInv.of_root {s : State} {before : List Request} {r : Request} (hst : s.st = .final)
    (hlog : s.coreLog = before ++ [r]) (hbefore : ∀ q ∈ before, PlainRequest q) (hlegal : LegalForm r)
    (hroot : hasRoot r = true) : RequestInv s := by
  refine ⟨fun q hq => ?_, ?_, fun _ => ⟨before, r, hlog, hroot⟩⟩
  · rw [hlog, List.mem_append, List.mem_singleton] at hq
    rcases hq with hq | rfl
    · exact (hbefore q hq).1
    · exact hlegal
  · rw [hlog, List.countP_append, countP_hasRoot_of_plain hbefore, List.countP_singleton, if_pos hroot, if_pos hst]

/-- A step that issues nothing and leaves `st` alone. -/
theorem RequestInv.of_same {s t : State} (h : RequestInv s) (hst : t.st = s.st) (hlog : t.coreLog = s.coreLog) :
    RequestInv t := by
  refine ⟨hlog ▸ h.legal, ?_, fun hf => ?_⟩
  · rw [hlog, hst]
    exact h.roots
  · rw [hlog]
    exact h.root_last (hst ▸ hf)

/-! ### Each kind of request is legal -/

/-- The flags of a block compression, as the table of R132. -/
theorem blockFlags_table (blkIdx : BitVec 5) :
    blockFlags blkIdx = if blkIdx = 0 then 0x1 else if blkIdx = 15 then 0x2 else 0x0 := by
  rw [blockFlags]
  by_cases h0 : blkIdx = 0
  · subst h0; rfl
  · by_cases h15 : blkIdx = 15
    · subst h15; rfl
    · simp only [if_neg h0, if_neg h15]; rfl

/-- A full block: `CHUNK_FIRST` from `IV`, `CHUNK_LAST` or `CHUNK_MID`. -/
theorem blockRequest_plain {s : State} (h : ChunkInv s) : PlainRequest (blockRequest s) := by
  rw [blockRequest, blockFlags_table]
  split
  · exact ⟨.inr (.inl ⟨rfl, h.cv_start ‹_›, rfl⟩), by simp [hasRoot]⟩
  · split
    · exact ⟨.inr (.inr (.inl ⟨rfl, by simp⟩)), by simp [hasRoot]⟩
    · exact ⟨.inl ⟨rfl, rfl⟩, by simp [hasRoot]⟩

theorem parentRequest_legal (left right : Cv) (root : Bool) : LegalForm (parentRequest left right root) := by
  cases root with
  | false => exact .inr (.inr (.inr (.inr (.inr (.inr (.inl ⟨rfl, rfl, rfl, rfl⟩))))))
  | true => exact .inr (.inr (.inr (.inr (.inr (.inr (.inr ⟨rfl, rfl, rfl, rfl⟩))))))

theorem hasRoot_parentRequest (left right : Cv) (root : Bool) : hasRoot (parentRequest left right root) = root := by
  cases root <;> simp [hasRoot, parentRequest, parentFlags, parentFlag, rootFlag]

theorem IsParent.plain {r : Request} (h : IsParent r) : PlainRequest r := by
  obtain ⟨left, right, rfl⟩ := h
  exact ⟨parentRequest_legal left right false, hasRoot_parentRequest left right false⟩

/-- The stack is empty exactly before the first chunk completes (R156). -/
theorem ContextInv.sp_eq_zero_iff {s : State} (h : ContextInv s) : s.sp = 0 ↔ s.chunkCtr = 0 := by
  rw [← popcount_eq_zero_iff, ← h.sp_eq, ← BitVec.toNat_inj]
  rfl

/-- The buffer is empty at the start of the input only (R40 item 3). -/
theorem ContextInv.bufLen_pos {s : State} (h : ContextInv s) (hne : s.blkIdx ≠ 0 ∨ s.chunkCtr ≠ 0) :
    1 ≤ s.bufLen.toNat := by
  by_contra hlt
  have h0 := h.empty_buf (BitVec.eq_of_toNat_eq (show s.bufLen.toNat = 0 by omega))
  rw [total] at h0
  rcases hne with hne | hne <;> have := BitVec.toNat_pos_of_ne_zero hne <;> omega

/-- The last chunk compression is one of the four forms with `CHUNK_END` (R173, R178). -/
theorem finalRequest_legal {s : State} (h : ContextInv s) : LegalForm (finalRequest (padded s)) := by
  have hle := h.bufLen_le
  simp only [finalRequest, padded, finalFlags_table]
  by_cases hb : s.blkIdx = 0
  · rw [if_pos hb]
    by_cases hsp : s.sp = 0
    · rw [if_pos hsp]
      exact .inr (.inr (.inr (.inr (.inr (.inl ⟨rfl, h.cv_start hb, h.sp_eq_zero_iff.mp hsp, hle⟩)))))
    · have hctr : s.chunkCtr ≠ 0 := fun e => hsp (h.sp_eq_zero_iff.mpr e)
      rw [if_neg hsp]
      exact .inr (.inr (.inr (.inl
        ⟨rfl, h.cv_start hb, BitVec.toNat_pos_of_ne_zero hctr, h.bufLen_pos (.inr hctr), hle⟩)))
  · rw [if_neg hb]
    by_cases hsp : s.sp = 0
    · rw [if_pos hsp]
      exact .inr (.inr (.inr (.inr (.inl ⟨rfl, h.sp_eq_zero_iff.mp hsp, h.bufLen_pos (.inl hb), hle⟩))))
    · rw [if_neg hsp]
      exact .inr (.inr (.inl ⟨rfl, h.bufLen_pos (.inl hb), hle⟩))

/-- With an empty stack the last chunk compression is the root; otherwise the unwind ends in it (R173). -/
theorem hasRoot_finalRequest (s : State) : hasRoot (finalRequest (padded s)) = decide (s.sp = 0) := by
  simp only [hasRoot, finalRequest, padded, finalFlags_table]
  by_cases hsp : s.sp = 0
  · simp only [if_pos hsp, decide_eq_true hsp]
    split <;> rfl
  · simp only [if_neg hsp, decide_eq_false hsp]
    split <;> rfl

/-! ### `UPDATE` issues plain requests -/

theorem blockStep_plainLog {s t : State} (h : ChunkInv s) (hlog : PlainLog s)
    (ht : blockStep s = .ok t ∨ blockStep s = .error t) : PlainLog t := by
  have hblock : PlainLog (compressBlock s) := by
    intro r hr
    rw [compressBlock_coreLog, List.mem_append, List.mem_singleton] at hr
    rcases hr with hr | rfl
    · exact hlog r hr
    · exact blockRequest_plain h
  rcases blockStep_cases s with ⟨-, e⟩ | ⟨-, -, e⟩ | ⟨-, -, e⟩ <;> rw [e] at ht
  · rcases ht with ht | ht <;> cases ht
    exact hblock
  · rcases ht with ht | ht <;> cases ht
    obtain ⟨stk, sp, issued, hf, hparents⟩ :=
      msFold_frame (coreAnswer (blockRequest s)) (s.chunkCtr + 1) (beforeFold s)
    intro r hr
    rw [hf] at hr
    rcases List.mem_append.mp hr with hr | hr
    · exact hblock r hr
    · exact (hparents r hr).plain
  · rcases ht with ht | ht <;> cases ht
    exact hblock

theorem ingestLoop_plainLog {fuel : Nat} {data : List Byte} {s t : State} (h : ChunkInv s) (hlog : PlainLog s)
    (ht : ingestLoop fuel data s = .ok t ∨ ingestLoop fuel data s = .error t) : PlainLog t := by
  induction fuel generalizing data s with
  | zero => rcases ht with ht | ht <;> cases ht; exact hlog
  | succ fuel ih =>
    by_cases hpass : 64 < s.bufLen.toNat + data.length
    · have hfill := fillBuffer_chunkInv data h
      cases hb : blockStep (fillBuffer data s) with
      | ok u =>
        rw [ingestLoop_pass_ok hpass hb] at ht
        exact ih (blockStep_chunkInv hfill hb) (blockStep_plainLog hfill hlog (.inl hb)) ht
      | error e =>
        rw [ingestLoop_pass_error hpass hb] at ht
        rcases ht with ht | ht <;> cases ht
        exact blockStep_plainLog hfill hlog (.inr hb)
    · rw [ingestLoop_stop _ _ _ (by omega)] at ht
      rcases ht with ht | ht <;> cases ht
      exact hlog

/-! ### `FINAL` issues one root, the last -/

/-- An unwind of a stack that is not empty issues parents without `ROOT`, and then one with it (R158, R159). -/
theorem msUnwind_coreLog (cand : Cv) {s : State} (h0 : s.sp ≠ 0) : ∃ parents left right,
    (msUnwind cand s).2.coreLog = s.coreLog ++ parents ++ [parentRequest left right true] ∧
    ∀ r ∈ parents, IsParent r := by
  induction hn : s.sp.toNat generalizing cand s with
  | zero => exact absurd (BitVec.eq_of_toNat_eq hn) h0
  | succ n ih =>
    rw [msUnwind_step cand s h0]
    by_cases hlast : (msPop s).2.sp = 0
    · rw [decide_eq_true hlast, msUnwind_stop _ _ (by rw [issue_sp, hlast])]
      exact ⟨[], (msPop s).1, cand, by simp, by simp⟩
    · rw [decide_eq_false hlast]
      obtain ⟨parents, left, right, hlog, hparents⟩ :=
        ih (parentCv (msPop s).1 cand false) (s := issue (parentRequest (msPop s).1 cand false) (msPop s).2)
          (by rwa [issue_sp]) (issue_msPop_sp_toNat hn _)
      refine ⟨parentRequest (msPop s).1 cand false :: parents, left, right, by rw [hlog]; simp, ?_⟩
      exact List.forall_mem_cons.mpr ⟨⟨_, _, rfl⟩, hparents⟩

/-- What `FINALIZE` issues: plain requests, and then the root (R178). -/
theorem finalize_coreLog {s : State} (h : ContextInv s) : ∃ before r,
    (finalize s).coreLog = s.coreLog ++ before ++ [r] ∧ (∀ q ∈ before, PlainRequest q) ∧
    LegalForm r ∧ hasRoot r = true := by
  have hlegal := finalRequest_legal h
  have hroot := hasRoot_finalRequest s
  rw [finalize_eq]
  by_cases hsp : s.sp = 0
  · rw [msUnwind_stop _ (issue _ (padded s)) hsp]
    exact ⟨[], finalRequest (padded s), by simp [padded], by simp, hlegal, by rw [hroot, decide_eq_true hsp]⟩
  · obtain ⟨parents, left, right, hlog, hparents⟩ := msUnwind_coreLog (coreAnswer (finalRequest (padded s)))
      (s := issue (finalRequest (padded s)) (padded s)) hsp
    refine ⟨finalRequest (padded s) :: parents, parentRequest left right true, ?_,
      List.forall_mem_cons.mpr ⟨⟨hlegal, by rw [hroot, decide_eq_false hsp]⟩, fun r hr => (hparents r hr).plain⟩,
      parentRequest_legal left right true, hasRoot_parentRequest left right true⟩
    dsimp only
    rw [hlog]
    simp [padded]

/-- `FINAL` in a context that meets the invariants, over a log of plain requests. -/
theorem final_requestInv {s : State} (hc : ContextInv s) (hlog : PlainLog s) :
    RequestInv (spendContext (respondDigest { finalize s with st := .final })) := by
  obtain ⟨before, r, hissued, hbefore, hlegal, hroot⟩ := finalize_coreLog hc
  exact .of_root rfl hissued (List.forall_mem_append.mpr ⟨hlog, hbefore⟩) hlegal hroot

theorem step_requestInv {s t : State} (hs : RestInv s) (h : RequestInv s) (ht : step s = .next t) : RequestInv t := by
  rcases step_cases s t ht with ⟨-, rfl⟩ | ⟨-, cmdIn, coreIn, coreOut, rfl⟩ |
    ⟨-, hf, rest, rfl | ⟨f, rfl⟩ | ⟨hst, data, ht⟩ | ⟨hst, rfl⟩ | ⟨hst, rfl⟩⟩
  · exact PlainLog.requestInv (fun r hr => absurd hr List.not_mem_nil) nofun
  · exact h.of_same rfl rfl
  · exact PlainLog.requestInv (fun r hr => absurd hr List.not_mem_nil) nofun
  · exact h.of_same rfl rfl
  · have hc := (hs.context ⟨hf, hst⟩).chunk
    have hplain {u : State} : ingest data { s with cmdIn := rest, st := .accum } = .ok u ∨
        ingest data { s with cmdIn := rest, st := .accum } = .error u → PlainLog u :=
      ingestLoop_plainLog ⟨hc.blkIdx_le, hc.cv_start, hc.sp_eq⟩ (h.plainLog hst)
    rcases ht with ht | ⟨e, he, rfl⟩
    · exact (hplain (.inl ht)).requestInv (by rw [ingest_frame data _ t (.inl ht)]; nofun)
    · have hlog : PlainLog (takeOverflow s.st e) := hplain (u := e) (.inr he)
      exact hlog.requestInv hst
  · exact final_requestInv ((hs.context ⟨hf, hst⟩).with_streams rest s.coreIn s.coreOut) (h.plainLog hst)
  · exact h.of_same rfl rfl

end Sys2Proof.Machine

/-! ### The obligation on the requests -/

section

open Sys2Proof Sys2Proof.Machine

/-- Settles O53: `UPDATE` issues plain requests by `ingestLoop_plainLog`, and `FINAL` ends in the root by `finalize_coreLog`. -/
theorem everyRequestIsLegalWithOneRoot : Obligations.EveryRequestIsLegalWithOneRoot := by
  unfold Obligations.EveryRequestIsLegalWithOneRoot
  intro s t hs h ht
  exact step_requestInv hs h ht

end

/-! ### `UPDATE` cut into pieces (30_encoding.md R85, 42_context_ingest.md R136, R139, R140) -/

namespace Sys2Proof.Machine

/-- A pass of `INGEST` in the byte-serial form: the bytes that fill the buffer, and the block step that the next byte brings
on (R131, R136). -/
theorem absorbAll_pass {data : List Byte} {s : State} (hl : s.bufLen.toNat ≤ 64)
    (hpass : 64 < s.bufLen.toNat + data.length) : absorbAll data s = match blockStep (fillBuffer data s) with
      | .error e => .error e
      | .ok u => absorbAll (data.drop (64 - s.bufLen.toNat)) u := by
  have htake : (data.take (64 - s.bufLen.toNat)).length = 64 - s.bufLen.toNat := List.length_take_of_le (by omega)
  have hstored := storeTail_bufLen_toNat (data := data.take (64 - s.bufLen.toNat)) (s := s) (by omega)
  have hfull : (storeTail (data.take (64 - s.bufLen.toNat)) s).bufLen = 64 :=
    BitVec.eq_of_toNat_eq (show _ = 64 by omega)
  have hrest : data.drop (64 - s.bufLen.toNat) ≠ [] := by rw [Ne, List.drop_eq_nil_iff]; omega
  conv_lhs => rw [← List.take_append_drop (64 - s.bufLen.toNat) data]
  rw [absorbAll_append, absorbAll_stop _ s (by omega)]
  exact absorbAll_full _ _ hfull hrest

theorem ingestLoop_eq_absorbAll {fuel : Nat} {data : List Byte} {s : State} (hl : s.bufLen.toNat ≤ 64)
    (hfuel : s.bufLen.toNat + data.length ≤ 64 * (fuel + 1)) : ingestLoop fuel data s = absorbAll data s := by
  induction fuel generalizing data s with
  | zero => rw [ingestLoop_stop _ _ _ (by omega), absorbAll_stop _ _ (by omega)]
  | succ fuel ih =>
    by_cases hpass : 64 < s.bufLen.toNat + data.length
    · rw [absorbAll_pass hl hpass]
      cases hb : blockStep (fillBuffer data s) with
      | error e => rw [ingestLoop_pass_error hpass hb]
      | ok u =>
        have hu : u.bufLen.toNat = 0 := by rw [blockStep_fillBuffer_bufLen hb]; rfl
        have hrest : (data.drop (64 - s.bufLen.toNat)).length = data.length - (64 - s.bufLen.toNat) := List.length_drop
        rw [ingestLoop_pass_ok hpass hb]
        exact ih (by omega) (by omega)
    · rw [ingestLoop_stop _ _ _ (by omega), absorbAll_stop _ _ (by omega)]

/-- `INGEST` is the byte-serial form (R136). -/
theorem ingest_eq_absorbAll {data : List Byte} {s : State} (hl : s.bufLen.toNat ≤ 64) :
    ingest data s = absorbAll data s :=
  ingestLoop_eq_absorbAll hl (by omega)

/-- Ingest of a sequence is ingest of its front and then of the rest (R140). -/
theorem ingest_append {a b : List Byte} {s u : State} (hl : s.bufLen.toNat ≤ 64) (ha : ingest a s = .ok u)
    (hu : u.bufLen.toNat ≤ 64) : ingest (a ++ b) s = ingest b u := by
  rw [ingest_eq_absorbAll hl] at ha ⊢
  rw [absorbAll_append, ha, ingest_eq_absorbAll hu]

/-- If the whole completes, so does its front. -/
theorem ingest_front_ok {a b : List Byte} {s w : State} (hl : s.bufLen.toNat ≤ 64) (h : ingest (a ++ b) s = .ok w) :
    ∃ u, ingest a s = .ok u := by
  rw [ingest_eq_absorbAll hl, absorbAll_append] at h
  rw [ingest_eq_absorbAll hl]
  cases ha : absorbAll a s with
  | ok u => exact ⟨u, rfl⟩
  | error e => rw [ha] at h; cases h

/-! ### Within the bound an `UPDATE` completes (R139) -/

/-- A block step that completes counts one block of 64 bytes (R134, R141). -/
theorem blockStep_total {s t : State} (h : ChunkInv s) (ht : blockStep s = .ok t) : total t = total s + 64 := by
  rcases blockStep_cases s with ⟨hb, e⟩ | ⟨hb, hc, e⟩ | ⟨-, -, e⟩ <;> rw [e] at ht <;> cases ht
  · have hblk := blkIdx_succ_toNat h.blkIdx_le
    simp only [total, compressBlock_chunkCtr, compressBlock_blkIdx, compressBlock_bufLen, hblk]
    omega
  · obtain ⟨stk, sp, issued, hf, -⟩ := msFold_frame (coreAnswer (blockRequest s)) (s.chunkCtr + 1) (beforeFold s)
    have hctr : (s.chunkCtr + 1).toNat = s.chunkCtr.toNat + 1 := by
      have hne : s.chunkCtr.toNat ≠ 2 ^ 64 - 1 := fun e => hc (BitVec.eq_of_toNat_eq e)
      bv_omega
    have hblk : s.blkIdx.toNat = 15 := by rw [hb]; rfl
    rw [hf]
    simp only [total, beforeFold, compressBlock_bufLen, hctr, hblk]
    change 1024 * (s.chunkCtr.toNat + 1) + 64 * 0 + s.bufLen.toNat = _
    omega

/-- A block step overflows at the last block of the last chunk only (R139). -/
theorem blockStep_error_total {s e : State} (h : blockStep s = .error e) : total s = 2 ^ 74 - 64 + s.bufLen.toNat := by
  rcases blockStep_cases s with ⟨-, e⟩ | ⟨-, -, e⟩ | ⟨hb, hc, -⟩
  · rw [e] at h; cases h
  · rw [e] at h; cases h
  · rw [total, hb, hc]
    rfl

theorem total_fillBuffer (data : List Byte) (s : State) : total (fillBuffer data s) + s.bufLen.toNat = total s := by
  simp [total, fillBuffer]

theorem ingestLoop_completes {fuel : Nat} {data : List Byte} {s : State} (h : ChunkInv s) (hl : s.bufLen.toNat ≤ 64)
    (hbound : total s + data.length ≤ 2 ^ 74) : ∃ t, ingestLoop fuel data s = .ok t := by
  induction fuel generalizing data s with
  | zero => exact ⟨_, rfl⟩
  | succ fuel ih =>
    by_cases hpass : 64 < s.bufLen.toNat + data.length
    · have hfill := fillBuffer_chunkInv data h
      have htotal := total_fillBuffer data s
      cases hb : blockStep (fillBuffer data s) with
      | error e =>
        have hlast := blockStep_error_total hb
        omega
      | ok u =>
        have hu : u.bufLen.toNat = 0 := by rw [blockStep_fillBuffer_bufLen hb]; rfl
        have hcount := blockStep_total hfill hb
        have hrest : (data.drop (64 - s.bufLen.toNat)).length = data.length - (64 - s.bufLen.toNat) := List.length_drop
        rw [ingestLoop_pass_ok hpass hb]
        exact ih (blockStep_chunkInv hfill hb) (by omega) (by omega)
    · exact ⟨_, ingestLoop_stop _ _ _ (by omega)⟩

/-- Within the bound no counter overflows, so that the `UPDATE` completes (R139, R192). -/
theorem ingest_completes {data : List Byte} {s : State} (h : ContextInv s) (hbound : total s + data.length ≤ 2 ^ 74) :
    ∃ t, ingest data { s with st := .accum } = .ok t :=
  ingestLoop_completes (s := { s with st := .accum }) ⟨h.blkIdx_le, h.cv_start, h.sp_eq⟩ h.bufLen_le hbound

/-! ### The pieces of `UPDATE.S` -/

theorem runCommands_cons {i : Instr} {s u : State} (h : exec i s = .next u) (is : List Instr) :
    runCommands (i :: is) s = runCommands is u := by
  rw [runCommands, h]

/-- After an `UPDATE` that completes the block accepts input again, in a context that meets the invariants. -/
theorem ingest_accum {data : List Byte} {s u : State} (hr : Ready s) (hc : ContextInv s)
    (hu : ingest data { s with st := .accum } = .ok u) : u.st = .accum ∧ Ready u ∧ ContextInv u := by
  have hst : u.st = .accum := by rw [ingest_frame data _ u (.inl hu)]
  have hf : u.fault = 0 := by rw [ingest_frame data _ u (.inl hu)]; exact hr.1
  exact ⟨hst, ⟨hf, by rw [hst]; nofun⟩, ingest_contextInv hc hu⟩

/-- With no bytes there is no piece, and in `ACCUM` nothing for ingest to do (R137). -/
theorem runCommands_noPieces {s w : State} (hl : s.bufLen.toNat ≤ 64) (hst : s.st = .accum)
    (hw : ingest [] { s with st := .accum } = .ok w) : runCommands [] s = .next w := by
  rw [← hst, ingest_eq_absorbAll (by exact hl)] at hw
  cases hw
  rfl

/-- The pieces of a byte string, one `UPDATE` each, end where ingest of the whole ends. With no bytes no `UPDATE` is issued,
which leaves `st` alone: then the block must be in `ACCUM` already. -/
theorem runCommands_splitPieces {k fuel : Nat} (hk : 0 < k) {data : List Byte} (hfuel : data.length ≤ fuel) {s w : State}
    (hr : Ready s) (hc : ContextInv s) (hst : data = [] → s.st = .accum)
    (hw : ingest data { s with st := .accum } = .ok w) : runCommands (splitPieces k fuel data) s = .next w := by
  induction fuel generalizing data s with
  | zero =>
    obtain rfl : data = [] := List.length_eq_zero_iff.mp (Nat.le_zero.mp hfuel)
    exact runCommands_noPieces hc.bufLen_le (hst rfl) hw
  | succ fuel ih =>
    cases data with
    | nil => exact runCommands_noPieces hc.bufLen_le (hst rfl) hw
    | cons x xs =>
      have hl : { s with st := .accum }.bufLen.toNat ≤ 64 := hc.bufLen_le
      have hsplit : ingest ((x :: xs).take k ++ (x :: xs).drop k) { s with st := .accum } = .ok w := by
        rwa [List.take_append_drop]
      obtain ⟨u, hu⟩ := ingest_front_ok hl hsplit
      obtain ⟨hust, hur, huc⟩ := ingest_accum hr hc hu
      rw [ingest_append hl hu huc.bufLen_le] at hsplit
      rw [splitPieces, runCommands_cons (exec_update_ok s u _ hr.1 hr.2 hu)]
      refine ih ?_ hur huc (fun _ => hust) (hust ▸ hsplit)
      rw [List.length_drop]
      omega

end Sys2Proof.Machine

/-! ### The obligation on the pseudo-command `UPDATE.S` -/

section

open Sys2Proof Sys2Proof.Machine

/-- Settles O46: within the bound the one `UPDATE` completes, and the pieces end in the very same state. -/
theorem splitFeedingEqualsOneUpdate : Obligations.SplitFeedingEqualsOneUpdate := by
  unfold Obligations.SplitFeedingEqualsOneUpdate
  intro s k data hs hr hk hdata hbound
  have hc := hs.context hr
  obtain ⟨w, hw⟩ := ingest_completes hc hbound
  exact ⟨w, w, runCommands_splitPieces hk (Nat.le_refl _) hr hc (fun h => absurd h hdata) hw,
    exec_update_ok s w data hr.1 hr.2 hw, ⟨rfl, rfl, rfl, rfl, rfl, rfl, rfl, fun _ _ => rfl⟩⟩

end

/-! ### The mixing step as two half-rounds (40_compression_core.md R102, R104) -/

namespace Sys2Proof.Machine

theorem rotr32_eq_rotateRight (x : Word) {n : Nat} (hn : n < 32) : rotr32 x n = x.rotateRight n := by
  rw [rotr32, BitVec.rotateRight_def, Nat.mod_eq_of_lt hn]

/-- Half of the mixing step (R102): four assignments with one message word and the two rotations `m` and `n`. -/
def halfMix (v : WorkVec) (a b c d : Fin 16) (x : Word) (m n : Nat) : WorkVec :=
  let v := v.set a (add32x3 v[a] v[b] x)
  let v := v.set d (rotr32 (v[d] ^^^ v[a]) m)
  let v := v.set c (add32 v[c] v[d])
  v.set b (rotr32 (v[b] ^^^ v[c]) n)

theorem mix_eq_halfMix (v : WorkVec) (a b c d : Fin 16) (x y : Word) :
    mix v a b c d x y = halfMix (halfMix v a b c d x 16 12) a b c d y 8 7 := rfl

/-- The four words of a half-round, each from the old vector and the words written before it. -/
theorem halfMix_words (v : WorkVec) {a b c d : Fin 16} (x : Word) {m n : Nat} (hnd : [a, b, c, d].Nodup) (hm : m < 32)
    (hn : n < 32) :
    (halfMix v a b c d x m n)[a] = v[a] + v[b] + x ∧
    (halfMix v a b c d x m n)[d] = (v[d] ^^^ (halfMix v a b c d x m n)[a]).rotateRight m ∧
    (halfMix v a b c d x m n)[c] = v[c] + (halfMix v a b c d x m n)[d] ∧
    (halfMix v a b c d x m n)[b] = (v[b] ^^^ (halfMix v a b c d x m n)[c]).rotateRight n := by
  simp only [List.nodup_cons, List.mem_cons, List.not_mem_nil, or_false, not_or] at hnd
  obtain ⟨⟨hab, hac, had⟩, ⟨hbc, hbd⟩, hcd, -⟩ := hnd
  simp [halfMix, Fin.val_inj, rotr32_eq_rotateRight _ hm, rotr32_eq_rotateRight _ hn, add32, add32x3, hab, hac, had,
    hbc, hbd, hcd, Ne.symm hab, Ne.symm hac, Ne.symm had, Ne.symm hbc, Ne.symm hbd, Ne.symm hcd]

theorem halfMix_getElem_of_not_mem (v : WorkVec) {a b c d i : Fin 16} (x : Word) (m n : Nat) (hi : i ∉ [a, b, c, d]) :
    (halfMix v a b c d x m n)[i] = v[i] := by
  simp only [List.mem_cons, List.not_mem_nil, or_false, not_or] at hi
  obtain ⟨ha, hb, hc, hd⟩ := hi
  simp [halfMix, Vector.getElem_set, Fin.val_inj, Ne.symm ha, Ne.symm hb, Ne.symm hc, Ne.symm hd]

theorem mix_getElem_of_not_mem (v : WorkVec) {a b c d i : Fin 16} (x y : Word) (hi : i ∉ [a, b, c, d]) :
    (mix v a b c d x y)[i] = v[i] := by
  rw [mix_eq_halfMix, halfMix_getElem_of_not_mem _ y 8 7 hi, halfMix_getElem_of_not_mem v x 16 12 hi]

/-- A half-round reads its four words alone. -/
theorem halfMix_congr {v w : WorkVec} {a b c d : Fin 16} (x : Word) {m n : Nat} (hnd : [a, b, c, d].Nodup) (hm : m < 32)
    (hn : n < 32) (h : ∀ i ∈ [a, b, c, d], v[i] = w[i]) :
    ∀ i ∈ [a, b, c, d], (halfMix v a b c d x m n)[i] = (halfMix w a b c d x m n)[i] := by
  obtain ⟨va, vd, vc, vb⟩ := halfMix_words v x hnd hm hn
  obtain ⟨wa, wd, wc, wb⟩ := halfMix_words w x hnd hm hn
  simp only [List.forall_mem_cons, List.not_mem_nil, false_implies, implies_true, and_true] at h ⊢
  obtain ⟨ha, hb, hc, hd⟩ := h
  have ea : (halfMix v a b c d x m n)[a] = (halfMix w a b c d x m n)[a] := by rw [va, wa, ha, hb]
  have ed : (halfMix v a b c d x m n)[d] = (halfMix w a b c d x m n)[d] := by rw [vd, wd, ea, hd]
  have ec : (halfMix v a b c d x m n)[c] = (halfMix w a b c d x m n)[c] := by rw [vc, wc, ed, hc]
  exact ⟨ea, by rw [vb, wb, ec, hb], ec, ed⟩

theorem mix_congr {v w : WorkVec} {a b c d : Fin 16} (x y : Word) (hnd : [a, b, c, d].Nodup)
    (h : ∀ i ∈ [a, b, c, d], v[i] = w[i]) : ∀ i ∈ [a, b, c, d], (mix v a b c d x y)[i] = (mix w a b c d x y)[i] :=
  halfMix_congr y hnd (by decide) (by decide) (halfMix_congr x hnd (by decide) (by decide) h)

/-- A mixing step writes its own four words as if the step on the other index set had not been done (R104). -/
theorem mix_mix_getElem_of_mem (v : WorkVec) {a b c d e f g h i : Fin 16} (x y z w : Word) (hnd : [a, b, c, d].Nodup)
    (hdisj : [a, b, c, d].Disjoint [e, f, g, h]) (hi : i ∈ [a, b, c, d]) :
    (mix (mix v e f g h z w) a b c d x y)[i] = (mix (mix v a b c d x y) e f g h z w)[i] := by
  rw [mix_getElem_of_not_mem _ z w (hdisj hi)]
  exact mix_congr x y hnd (fun j hj => mix_getElem_of_not_mem v z w (hdisj hj)) i hi

theorem mix_comm (v : WorkVec) {a b c d e f g h : Fin 16} (x y z w : Word) (h₁ : [a, b, c, d].Nodup)
    (h₂ : [e, f, g, h].Nodup) (hdisj : [a, b, c, d].Disjoint [e, f, g, h]) :
    mix (mix v a b c d x y) e f g h z w = mix (mix v e f g h z w) a b c d x y := by
  have hwords (i : Fin 16) :
      (mix (mix v a b c d x y) e f g h z w)[i] = (mix (mix v e f g h z w) a b c d x y)[i] := by
    by_cases habcd : i ∈ [a, b, c, d]
    · exact (mix_mix_getElem_of_mem v x y z w h₁ hdisj habcd).symm
    · by_cases hefgh : i ∈ [e, f, g, h]
      · exact mix_mix_getElem_of_mem v z w x y h₂ hdisj.symm hefgh
      · rw [mix_getElem_of_not_mem _ z w hefgh, mix_getElem_of_not_mem _ x y habcd, mix_getElem_of_not_mem _ x y habcd,
          mix_getElem_of_not_mem _ z w hefgh]
  exact Vector.ext fun k hk => hwords ⟨k, hk⟩

/-! ### The working vector and the output of `COMPRESS` (R101, R105) -/

theorem initVector_getElem_low (h : Cv) (t : BitVec 64) (b : BitVec 7) (d : BitVec 4) (i : Nat) (hi : i < 8) :
    (initVector h t b d)[i] = h[i] := by
  interval_cases i <;> rfl

theorem lo32_toNat (t : BitVec 64) : (lo32 t).toNat = t.toNat % 2 ^ 32 := by
  simp [lo32]

theorem hi32_toNat (t : BitVec 64) : (hi32 t).toNat = t.toNat / 2 ^ 32 := by
  have := t.isLt
  simp [hi32, Nat.shiftRight_eq_div_pow]
  omega

theorem compress_getElem (h : Cv) (m : MsgBlock) (t : BitVec 64) (b : BitVec 7) (d : BitVec 4) (i : Nat) (hi : i < 8) :
    (compress h m t b d)[i] = (rounds (initVector h t b d) m)[i] ^^^ (rounds (initVector h t b d) m)[i + 8] := by
  rw [compress, outputHalf, Vector.getElem_ofFn]

end Sys2Proof.Machine

/-! ### A core exposed on its own (R106, R107, log 2) -/

namespace Sys2Proof.Machine

/-- The eight request forms with their flag sets (R81). -/
def requestForms (a : CoreArgs) : List (Instr × BitVec 4) :=
  [(.chunkMid a, 0x0), (.chunkFirst a, 0x1), (.chunkLast a, 0x2), (.chunkOnly a, 0x3), (.chunkLastRoot a, 0xA),
    (.chunkOnlyRoot a, 0xB), (.parent a, 0x4), (.parentRoot a, 0xC)]

theorem encode_requestForms {a : CoreArgs} : ∀ p ∈ requestForms a, encode p.1 = .port ⟨a, p.2⟩ := by
  simp [requestForms, encode]

theorem exec_requestForms {a : CoreArgs} {p : Instr × BitVec 4} (hp : p ∈ requestForms a) (s : State) :
    exec p.1 s = serveRequest p.2 a s :=
  exec_request ⟨a, p.2⟩ p.1 s (decodeRequest_encode (encode_requestForms p hp))

/-- With no reset asserted, a waiting request is served before the stream (log 2). -/
theorem step_request {s : State} {r : Request} {later : List Request} (hr : s.resetReq = false)
    (hin : s.coreIn = r :: later) : step s = stepRequest r later s := by
  simp [step, hr, hin]

theorem stepRequest_form {r : Request} {i : Instr} (h : decodeRequest r = some i) (later : List Request) (s : State) :
    stepRequest r later s = exec i { s with coreIn := later } := by
  rw [stepRequest, h]

theorem stepRequest_no_form {r : Request} (h : decodeRequest r = none) (later : List Request) (s : State) :
    stepRequest r later s = .refused (.corePrecond r.args.b r.d) := by
  rw [stepRequest, h]

/-! ### The block does not touch the exposed core's port (R106, log 2)

Every operation of a command gives the same with another port beside it. -/

/-- The block with no reset asserted, beside a port with these requests waiting and these answers given. -/
def State.withPort (s : State) (waiting : List Request) (answers : List Cv) : State :=
  { s with coreIn := waiting, coreOut := answers, resetReq := false }

theorem State.withPort_self {s : State} (hr : s.resetReq = false) : s.withPort s.coreIn s.coreOut = s := by
  rw [State.withPort, ← hr]

/-- A client's legal request, presented at an idle port, is answered, and nothing else happens. -/
theorem step_present {s : State} {r : Request} (hr : s.resetReq = false) (hin : s.coreIn = []) (hb : r.args.b.toNat ≤ 64)
    (hd : (decodeRequest r).isSome = true) :
    step (s.present r) = .next (s.withPort [] (s.coreOut ++ [coreAnswer r])) := by
  obtain ⟨i, hi⟩ := Option.isSome_iff_exists.mp hd
  have hport : (s.present r).coreIn = [r] := congrArg (· ++ [r]) hin
  rw [step_request (s := s.present r) hr hport, stepRequest_form hi, exec_request r i _ hi, serveRequest_legal _ _ _ hb,
    State.withPort, ← hr]
  rfl

section

variable (waiting : List Request) (answers : List Cv)

@[simp] theorem withPort_blkIdx (s : State) : (s.withPort waiting answers).blkIdx = s.blkIdx := rfl
@[simp] theorem withPort_chunkCtr (s : State) : (s.withPort waiting answers).chunkCtr = s.chunkCtr := rfl
@[simp] theorem withPort_sp (s : State) : (s.withPort waiting answers).sp = s.sp := rfl
@[simp] theorem withPort_cmdIn (s : State) : (s.withPort waiting answers).cmdIn = s.cmdIn := rfl

theorem msFoldLoop_withPort (fuel : Nat) (cur : Cv) (u : BitVec 64) (s : State) :
    msFoldLoop fuel cur u (s.withPort waiting answers) = (msFoldLoop fuel cur u s).withPort waiting answers := by
  induction fuel generalizing cur u s with
  | zero => rfl
  | succ fuel ih =>
    rw [msFoldLoop, msFoldLoop, withPort_sp]
    split
    · exact ih _ _ (issue (parentRequest (msPop s).1 cur false) (msPop s).2)
    · rfl

theorem msUnwindLoop_withPort (fuel : Nat) (cand : Cv) (s : State) :
    msUnwindLoop fuel cand (s.withPort waiting answers) =
      ((msUnwindLoop fuel cand s).1, (msUnwindLoop fuel cand s).2.withPort waiting answers) := by
  induction fuel generalizing cand s with
  | zero => rfl
  | succ fuel ih =>
    rw [msUnwindLoop, msUnwindLoop, withPort_sp]
    split
    · exact ih _ (issue (parentRequest (msPop s).1 cand (decide ((msPop s).2.sp = 0))) (msPop s).2)
    · rfl

theorem finalize_withPort (s : State) :
    finalize (s.withPort waiting answers) = (finalize s).withPort waiting answers := by
  have hunwind := msUnwindLoop_withPort waiting answers s.sp.toNat (coreAnswer (finalRequest (padded s)))
    (issue (finalRequest (padded s)) (padded s))
  exact congrArg (fun p : Cv × State => { p.2 with digest := leStore8 p.1 }) hunwind

/-- The result of an operation that may overflow, beside another port. -/
def resultWithPort : Except State State → Except State State
  | .ok s => .ok (s.withPort waiting answers)
  | .error e => .error (e.withPort waiting answers)

theorem foldChunk_withPort (s : State) :
    foldChunk (s.withPort waiting answers) = (foldChunk s).withPort waiting answers := by
  have hfold := msFoldLoop_withPort waiting answers s.sp.toNat s.cv (inc64 s.chunkCtr)
    { s with chunkCtr := inc64 s.chunkCtr }
  exact congrArg (fun t : State => { t with cv := iv }) hfold

theorem completeChunk_withPort (s : State) :
    completeChunk (s.withPort waiting answers) = resultWithPort waiting answers (completeChunk s) := by
  rw [completeChunk, completeChunk, withPort_chunkCtr, foldChunk_withPort]
  split <;> rfl

theorem blockStep_withPort (s : State) :
    blockStep (s.withPort waiting answers) = resultWithPort waiting answers (blockStep s) := by
  have hcompress : compressBlock (s.withPort waiting answers) = (compressBlock s).withPort waiting answers := rfl
  rw [blockStep, blockStep, hcompress, finishBlock, finishBlock, withPort_blkIdx]
  split
  · exact completeChunk_withPort waiting answers { compressBlock s with blkIdx := 0 }
  · rfl

theorem ingestLoop_withPort (fuel : Nat) (data : List Byte) (s : State) :
    ingestLoop fuel data (s.withPort waiting answers) = resultWithPort waiting answers (ingestLoop fuel data s) := by
  induction fuel generalizing data s with
  | zero => rfl
  | succ fuel ih =>
    rcases Nat.lt_or_ge 64 (s.bufLen.toNat + data.length) with hpass | hstop
    · have hblock := blockStep_withPort waiting answers (fillBuffer data s)
      cases hb : blockStep (fillBuffer data s) with
      | ok u =>
        rw [hb] at hblock
        rw [ingestLoop_pass_ok hpass hb, ingestLoop_pass_ok (s := s.withPort waiting answers) hpass hblock]
        exact ih _ u
      | error e =>
        rw [hb] at hblock
        rw [ingestLoop_pass_error hpass hb, ingestLoop_pass_error (s := s.withPort waiting answers) hpass hblock]
        rfl
    · rw [ingestLoop_stop _ data s hstop, ingestLoop_stop _ data (s.withPort waiting answers) hstop]
      rfl

end

/-- A command that answers a next state, and the same one beside any port. -/
def IgnoresPort (run : State → Answer) (s : State) : Prop :=
  ∃ t, run s = .next t ∧ ∀ waiting answers, run (s.withPort waiting answers) = .next (t.withPort waiting answers)

theorem exec_update_ignoresPort (data : List Byte) {s : State} (hf : s.fault = 0) : IgnoresPort (exec (.update data)) s := by
  by_cases hst : s.st = .final
  · exact ⟨_, exec_update_final s data hf hst, fun _ _ => exec_update_final (s.withPort _ _) data hf hst⟩
  · have hingest waiting answers := ingestLoop_withPort waiting answers (data.length + 1) data { s with st := .accum }
    cases hi : ingest data { s with st := .accum } with
    | ok t =>
      refine ⟨t, exec_update_ok s t data hf hst hi, fun waiting answers => ?_⟩
      exact exec_update_ok (s.withPort _ _) _ data hf hst ((hingest _ _).trans (congrArg _ hi))
    | error e =>
      refine ⟨_, exec_update_error s e data hf hst hi, fun waiting answers => ?_⟩
      exact exec_update_error (s.withPort _ _) _ data hf hst ((hingest _ _).trans (congrArg _ hi))

theorem exec_final_ignoresPort {s : State} (hf : s.fault = 0) : IgnoresPort (exec .final) s := by
  by_cases hst : s.st = .final
  · exact ⟨_, exec_final_final s hf hst, fun _ _ => exec_final_final (s.withPort _ _) hf hst⟩
  · refine ⟨_, exec_final s hf hst, fun waiting answers => ?_⟩
    rw [exec_final (s.withPort waiting answers) hf hst, finalize_withPort]
    rfl

theorem exec_rddig_ignoresPort {s : State} (hf : s.fault = 0) : IgnoresPort (exec .rddig) s := by
  by_cases hst : s.st = .final
  · exact ⟨_, exec_rddig s hf hst, fun _ _ => exec_rddig (s.withPort _ _) hf hst⟩
  · exact ⟨_, exec_rddig_early s hf hst, fun _ _ => exec_rddig_early (s.withPort _ _) hf hst⟩

theorem exec_command_ignoresPort {i : Instr} {bytes : List Byte} (hi : encode i = .stream bytes) (s : State) :
    IgnoresPort (exec i) s := by
  by_cases hf : s.fault = 0
  · cases i with
    | init => exact ⟨_, exec_init s hf, fun _ _ => exec_init (s.withPort _ _) hf⟩
    | update data => exact exec_update_ignoresPort data hf
    | final => exact exec_final_ignoresPort hf
    | rddig => exact exec_rddig_ignoresPort hf
    | _ => cases hi
  · exact ⟨s, exec_shut s i bytes hf hi, fun _ _ => exec_shut (s.withPort _ _) i bytes hf hi⟩

theorem reservedByte_ignoresPort (x : Byte) (s : State) : IgnoresPort (reservedByte x) s := by
  by_cases hf : s.fault = 0
  · exact ⟨_, gate_open s _ hf, fun _ _ => gate_open (s.withPort _ _) _ hf⟩
  · exact ⟨s, gate_shut s _ hf, fun _ _ => gate_shut (s.withPort _ _) _ hf⟩

theorem stepCommand_ignoresPort (s : State) : IgnoresPort stepCommand s := by
  simp only [IgnoresPort, stepCommand, withPort_cmdIn]
  split
  next i rest hd =>
    obtain ⟨-, bytes, hi, -⟩ := decodeStream_eq_instr hd
    exact exec_command_ignoresPort hi { s with cmdIn := rest }
  next x rest _ => exact reservedByte_ignoresPort x { s with cmdIn := rest }
  next => exact ⟨s, rfl, fun _ _ => rfl⟩
  next => exact ⟨s, rfl, fun _ _ => rfl⟩

/-- A request served at an idle port before or after a command: the same state (R106). -/
theorem step_present_comm {s : State} {r : Request} (hr : s.resetReq = false) (hin : s.coreIn = []) (hb : r.args.b.toNat ≤ 64)
    (hd : (decodeRequest r).isSome = true) :
    ∃ u v w, step (s.present r) = .next u ∧ step u = .next v ∧ step s = .next w ∧ step (w.present r) = .next v := by
  obtain ⟨w, hw, hport⟩ := stepCommand_ignoresPort s
  have hwport : w = w.withPort [] s.coreOut := by
    have hself := hport s.coreIn s.coreOut
    rw [State.withPort_self hr, hw, hin] at hself
    exact Host.Outcome.next.inj hself
  refine ⟨s.withPort [] (s.coreOut ++ [coreAnswer r]), w.withPort [] (s.coreOut ++ [coreAnswer r]), w,
    step_present hr hin hb hd, (step_stream rfl rfl).trans (hport _ _), (step_stream hr hin).trans hw, ?_⟩
  rw [hwport]
  exact step_present rfl rfl hb hd

end Sys2Proof.Machine

/-! ### The obligations on the compression core -/

section

open Sys2Proof Sys2Proof.Machine

/-- Settles O28: the words of the first half-round, then those of the second (`halfMix_words`), and the frame. -/
theorem mixStepRewritesItsFourWords : Obligations.MixStepRewritesItsFourWords := by
  unfold Obligations.MixStepRewritesItsFourWords
  intro v a b c d x y hnd
  obtain ⟨ha₁, hd₁, hc₁, hb₁⟩ := halfMix_words v x hnd (m := 16) (n := 12) (by decide) (by decide)
  obtain ⟨ha₂, hd₂, hc₂, hb₂⟩ := halfMix_words (halfMix v a b c d x 16 12) y hnd (m := 8) (n := 7) (by decide) (by decide)
  exact ⟨_, _, _, _, _, _, _, _, ha₁, hd₁, hc₁, hb₁, ha₂, hd₂, hc₂, hb₂, rfl, rfl, rfl, rfl,
    fun i hi => mix_getElem_of_not_mem v x y hi⟩

/-- Settles O29: the eight indices are two disjoint sets of four, and neither step reads a word the other writes. -/
theorem disjointMixStepsCommute : Obligations.DisjointMixStepsCommute := by
  unfold Obligations.DisjointMixStepsCommute
  intro v a b c d e f g h x y z w hnd
  obtain ⟨h₁, h₂, hdisj⟩ := List.nodup_append'.mp (show ([a, b, c, d] ++ [e, f, g, h]).Nodup from hnd)
  exact mix_comm v x y z w h₁ h₂ hdisj

/-- Settles O30: the round and the seven rounds are the folds written out; the layout is read off `initVector`. -/
theorem compressIsSevenRoundsOnTheLayout : Obligations.CompressIsSevenRoundsOnTheLayout := by
  unfold Obligations.CompressIsSevenRoundsOnTheLayout
  refine ⟨fun v m r => ⟨_, rfl, rfl⟩, fun h m t b d => ⟨initVector h t b d, rounds (initVector h t b d) m, ?_⟩⟩
  have hb : (b.setWidth 32).toNat = b.toNat := BitVec.toNat_setWidth_of_le (by decide)
  have hd : (d.setWidth 32).toNat = d.toNat := BitVec.toNat_setWidth_of_le (by decide)
  exact ⟨initVector_getElem_low h t b d, rfl, rfl, rfl, rfl, lo32_toNat t, hi32_toNat t, hb, hd, rfl,
    compress_getElem h m t b d⟩

/-- Settles O56: a command gives the same beside any port (`stepCommand_ignoresPort`), and serving a request moves the port
alone. -/
theorem exposedCoreIsIndependentOfTheBlock : Obligations.ExposedCoreIsIndependentOfTheBlock := by
  unfold Obligations.ExposedCoreIsIndependentOfTheBlock
  intro s r hr hin hb hd
  exact step_present_comm hr hin hb hd

/-- Settles O6: the step goes to `stepRequest`, which the request's decoding decides. -/
theorem stepServesTheWaitingRequest : Obligations.StepServesTheWaitingRequest := by
  unfold Obligations.StepServesTheWaitingRequest
  intro s r later hr hin
  rw [step_request hr hin]
  exact ⟨fun i hi => stepRequest_form hi later s, fun hnone => stepRequest_no_form hnone later s⟩

/-- Settles O32: one fixed compression, evaluated by the kernel. -/
theorem compressOfTheEmptyInput : Obligations.CompressOfTheEmptyInput := by
  unfold Obligations.CompressOfTheEmptyInput
  decide +kernel

/-- Settles O33: each form serves its request (`exec_requestForms`), within the precondition. -/
theorem exposedCoreAnswersEveryForm : Obligations.ExposedCoreAnswersEveryForm := by
  unfold Obligations.ExposedCoreAnswersEveryForm
  intro a s hb p hp
  rw [exec_requestForms hp, serveRequest_legal _ _ _ hb, coreAnswer]

/-- Settles O34: each form serves its request (`exec_requestForms`), outside the precondition. -/
theorem exposedCoreRefusesALongBlock : Obligations.ExposedCoreRefusesALongBlock := by
  unfold Obligations.ExposedCoreRefusesALongBlock
  intro a s hb p hp
  rw [exec_requestForms hp, serveRequest_illegal _ _ _ hb]

end

/-! ### Load and store are inverse (41_word_serializer.md R120 to R122) -/

namespace Sys2Proof.Machine

/-- Byte `j` of word `i` of the block is the block's byte `4i + j` (R120, R52). -/
theorem wordByte_leLoad16 (B : Buffer) {i j : Nat} (hi : i < 16) (hj : j < 4) :
    wordByte (leLoad16 B)[i] j = B[4 * i + j] := by
  obtain ⟨h0, h1, h2, h3⟩ := wordByte_leWord B[4 * i] B[4 * i + 1] B[4 * i + 2] B[4 * i + 3]
  rw [leLoad16_getElem B i hi]
  match j, hj with
  | 0, _ => exact h0
  | 1, _ => exact h1
  | 2, _ => exact h2
  | 3, _ => exact h3

/-- A word is loaded from a block that holds its four bytes in order (R120). -/
theorem leLoad16_eq_of_bytes {B : Buffer} {i : Nat} (hi : i < 16) {x : Word}
    (hbytes : ∀ j (hj : j < 4), B[4 * i + j] = wordByte x j) : (leLoad16 B)[i] = x := by
  rw [leLoad16_getElem B i hi, ← leWord_wordByte x, ← hbytes 0 (by decide), ← hbytes 1 (by decide),
    ← hbytes 2 (by decide), ← hbytes 3 (by decide)]
  rfl

/-- Word `i` of a value is stored at bytes `4i` to `4i + 3` (R121). -/
theorem leStore8_getElem_word (w : Cv) {i j : Nat} (hi : i < 8) (hj : j < 4) :
    (leStore8 w)[4 * i + j] = wordByte w[i] j := by
  have hdiv : (4 * i + j) / 4 = i := by omega
  have hmod : (4 * i + j) % 4 = j := by omega
  simp only [leStore8_getElem, hdiv, hmod]

end Sys2Proof.Machine

section

open Sys2Proof Sys2Proof.Machine

/-- Settles O36. Loading: word `i` is read from the four bytes it was stored at. Storing: byte `i` is byte `i % 4` of the word
`i / 4` loaded from the block. The block's zero half is not needed. -/
theorem loadAndStoreAreInverse : Obligations.LoadAndStoreAreInverse := by
  unfold Obligations.LoadAndStoreAreInverse
  refine ⟨fun w B hB i hi => leLoad16_eq_of_bytes (by omega) fun j hj => ?_, fun w B hw i hi => ?_⟩
  · have hbyte := hB (4 * i + j) (by omega)
    rw [if_pos (by omega), Vector.getElem?_eq_getElem (by omega), Vector.getElem?_eq_getElem (by omega)] at hbyte
    rw [Option.some.inj hbyte, leStore8_getElem_word w hi hj]
  · have hpos : 4 * (i / 4) + i % 4 = i := Nat.div_add_mod i 4
    rw [leStore8_getElem, hw (i / 4) (by omega), wordByte_leLoad16 B (by omega) (Nat.mod_lt i (by decide))]
    simp only [hpos]

end

/-! ### `UPDATE` byte by byte (42_context_ingest.md R131 to R136) -/

namespace Sys2Proof.Machine

/-- A write at index `n` on leaves the bytes before it and behind it (R135). -/
theorem writeBytes_getElem?_of_outside (buf : Buffer) {n : Nat} {data : List Byte} {j : Nat}
    (hj : j < n ∨ n + data.length ≤ j) : (writeBytes buf n data)[j]? = buf[j]? := by
  by_cases h64 : j < 64
  · rw [writeBytes_getElem? buf n data j h64, if_neg (by omega)]
  · rw [Vector.getElem?_eq_none (by omega), Vector.getElem?_eq_none (by omega)]

/-- Ingest of one byte is the byte-serial step (R136). -/
theorem ingest_singleton (x : Byte) {s : State} (hl : s.bufLen.toNat ≤ 64) : ingest [x] s = absorb1 x s := by
  rw [ingest_eq_absorbAll hl, absorbAll]
  cases absorb1 x s <;> rfl

/-- On a full buffer: the block step, and the byte at index 0 (R136). -/
theorem absorb1_full {x : Byte} {s u : State} (h : s.bufLen = 64) (hb : blockStep { s with bufLen := 0 } = .ok u) :
    absorb1 x s = .ok { u with buf := s.buf.set 0 x, bufLen := 1 } := by
  have hlen : u.bufLen = 0 := by rw [blockStep_frame _ _ (.inl hb)]
  have hbuf : u.buf = s.buf := by rw [blockStep_frame _ _ (.inl hb)]
  have hset : s.buf.setIfInBounds 0 x = s.buf.set 0 x := Vector.ext fun i hi => by
    rw [Vector.getElem_setIfInBounds, Vector.getElem_set]
  rw [absorb1_full_ok x s u h hb, hlen, hbuf]
  change Except.ok (ε := State) { u with buf := s.buf.setIfInBounds 0 x, bufLen := 1 } = _
  rw [hset]

/-- The two ways to absorb a byte: store it, or compress the full buffer first (R136). -/
theorem absorb1_cases {x : Byte} {s t : State} (hl : s.bufLen.toNat ≤ 64) (ht : absorb1 x s = .ok t) :
    (s.bufLen.toNat < 64 ∧ t = { s with buf := s.buf.setIfInBounds s.bufLen.toNat x, bufLen := s.bufLen + 1 }) ∨
    (s.bufLen = 64 ∧ ∃ u, blockStep { s with bufLen := 0 } = .ok u ∧
      t = { u with buf := s.buf.set 0 x, bufLen := 1 }) := by
  by_cases h : s.bufLen = 64
  · refine .inr ⟨h, ?_⟩
    cases hb : blockStep { s with bufLen := 0 } with
    | ok u =>
      rw [absorb1_full h hb] at ht
      cases ht
      exact ⟨u, rfl, rfl⟩
    | error e =>
      rw [absorb1_full_error x s e h hb] at ht
      cases ht
  · have hlt : s.bufLen.toNat < 64 := Nat.lt_of_le_of_ne hl fun e => h (BitVec.eq_of_toNat_eq e)
    rw [absorb1_room x s hlt] at ht
    cases ht
    exact .inl ⟨hlt, rfl⟩

/-- A byte overflows in its block step only (R139). -/
theorem absorb1_error {x : Byte} {s e : State} (he : absorb1 x s = .error e) :
    blockStep { s with bufLen := 0 } = .error e := by
  rw [absorb1] at he
  by_cases h : s.bufLen = 64
  · rw [if_pos h] at he
    cases hb : blockStep { s with bufLen := 0 } <;> rw [hb] at he <;> cases he
    rfl
  · rw [if_neg h] at he
    cases he

theorem absorbAll_cons_ok {x : Byte} {xs : List Byte} {s t : State} (h : absorbAll (x :: xs) s = .ok t) :
    ∃ u, absorb1 x s = .ok u ∧ absorbAll xs u = .ok t := by
  rw [absorbAll] at h
  cases hx : absorb1 x s with
  | ok u => rw [hx] at h; exact ⟨u, rfl, h⟩
  | error e => rw [hx] at h; cases h

theorem absorb1_bufLen_le {x : Byte} {s t : State} (hl : s.bufLen.toNat ≤ 64) (ht : absorb1 x s = .ok t) :
    t.bufLen.toNat ≤ 64 := by
  rcases absorb1_cases hl ht with ⟨hlt, rfl⟩ | ⟨-, u, -, rfl⟩
  · exact (bufLen_succ _ hlt).trans_le hlt
  · exact (by decide : (1 : BitVec 7).toNat ≤ 64)

theorem absorbAll_bufLen_le {data : List Byte} {s t : State} (hl : s.bufLen.toNat ≤ 64) (ht : absorbAll data s = .ok t) :
    t.bufLen.toNat ≤ 64 := by
  induction data generalizing s with
  | nil => cases ht; exact hl
  | cons x xs ih =>
    obtain ⟨u, hu, ht⟩ := absorbAll_cons_ok ht
    exact ih (absorb1_bufLen_le hl hu) ht

theorem ingest_bufLen_le {data : List Byte} {s t : State} (hl : s.bufLen.toNat ≤ 64) (ht : ingest data s = .ok t) :
    t.bufLen.toNat ≤ 64 := by
  rw [ingest_eq_absorbAll hl] at ht
  exact absorbAll_bufLen_le hl ht

/-- The chunk's part of the invariants does not speak of the buffer. -/
theorem ChunkInv.with_buffer {s : State} (h : ChunkInv s) (buf : Buffer) (bufLen : BitVec 7) :
    ChunkInv { s with buf := buf, bufLen := bufLen } :=
  ⟨h.blkIdx_le, h.cv_start, h.sp_eq⟩

/-- What holds between two bytes of one `UPDATE`: the chunk's part of the invariants, and the buffer's bound. -/
structure ByteInv (s : State) : Prop where
  chunk : ChunkInv s
  bufLen_le : s.bufLen.toNat ≤ 64

theorem ContextInv.byte {s : State} (h : ContextInv s) : ByteInv { s with st := .accum } :=
  ⟨⟨h.blkIdx_le, h.cv_start, h.sp_eq⟩, h.bufLen_le⟩

theorem absorb1_byteInv {x : Byte} {s t : State} (h : ByteInv s) (ht : absorb1 x s = .ok t) : ByteInv t := by
  refine ⟨?_, absorb1_bufLen_le h.bufLen_le ht⟩
  rcases absorb1_cases h.bufLen_le ht with ⟨-, rfl⟩ | ⟨-, u, hb, rfl⟩
  · exact h.chunk.with_buffer _ _
  · exact (blockStep_chunkInv (h.chunk.with_buffer s.buf 0) hb).with_buffer _ _

/-- The index the next byte goes to is its offset modulo 64 (R135). -/
theorem total_mod (s : State) : total s % 64 = s.bufLen.toNat % 64 := by
  rw [total]
  omega

/-- One byte moves the position on by one (R35, R136). -/
theorem absorb1_total {x : Byte} {s t : State} (h : ByteInv s) (ht : absorb1 x s = .ok t) : total t = total s + 1 := by
  rcases absorb1_cases h.bufLen_le ht with ⟨hlt, rfl⟩ | ⟨hfull, u, hb, rfl⟩
  · simp only [total, bufLen_succ _ hlt]
    omega
  · have hcount := blockStep_total (h.chunk.with_buffer s.buf 0) hb
    have hlen : u.bufLen = 0 := by rw [blockStep_frame _ _ (.inl hb)]
    simp only [total, hlen, hfull, BitVec.ofNat_eq_ofNat, BitVec.toNat_ofNat] at hcount ⊢
    omega

theorem absorb1_buf {x : Byte} {s t : State} (hl : s.bufLen.toNat ≤ 64) (ht : absorb1 x s = .ok t) (j : Nat) :
    t.buf[j]? = if total s % 64 = j then some x else s.buf[j]? := by
  have hmod := total_mod s
  rcases absorb1_cases hl ht with ⟨hlt, rfl⟩ | ⟨hfull, u, -, rfl⟩
  · rw [hmod, Nat.mod_eq_of_lt hlt]
    simp [Vector.getElem?_setIfInBounds, hlt]
  · rw [hmod, hfull]
    simp [Vector.getElem?_set]

theorem absorbAll_byteInv_and_total {data : List Byte} {s t : State} (h : ByteInv s) (ht : absorbAll data s = .ok t) :
    ByteInv t ∧ total t = total s + data.length := by
  induction data generalizing s with
  | nil => cases ht; exact ⟨h, rfl⟩
  | cons x xs ih =>
    obtain ⟨u, hu, ht⟩ := absorbAll_cons_ok ht
    obtain ⟨hinv, htotal⟩ := ih (absorb1_byteInv h hu) ht
    refine ⟨hinv, ?_⟩
    rw [htotal, absorb1_total h hu, List.length_cons]
    omega

/-- A byte of `buf` at which no absorbed byte's offset falls is not written (R135). -/
theorem absorbAll_buf_frame {data : List Byte} {s t : State} (h : ByteInv s) (ht : absorbAll data s = .ok t) {j : Nat}
    (hj : ∀ k, k < data.length → (total s + k) % 64 ≠ j) : t.buf[j]? = s.buf[j]? := by
  induction data generalizing s with
  | nil => cases ht; rfl
  | cons x xs ih =>
    obtain ⟨u, hu, ht⟩ := absorbAll_cons_ok ht
    have hrest := ih (absorb1_byteInv h hu) ht fun k hk => by
      rw [absorb1_total h hu, Nat.add_assoc, Nat.add_comm 1]
      exact hj (k + 1) (Nat.succ_lt_succ hk)
    rw [hrest, absorb1_buf h.bufLen_le hu, if_neg (show total s % 64 ≠ j from hj 0 (Nat.succ_pos _))]

/-- Each of the last 64 absorbed bytes stands at its offset modulo 64: no later one falls there (R135). -/
theorem absorbAll_buf {data : List Byte} {s t : State} (h : ByteInv s) (ht : absorbAll data s = .ok t) {k : Nat}
    (hk : k < data.length) (hlast : data.length ≤ k + 64) : t.buf[(total s + k) % 64]? = data[k]? := by
  induction data generalizing s k with
  | nil => cases hk
  | cons x xs ih =>
    obtain ⟨u, hu, ht⟩ := absorbAll_cons_ok ht
    have hinv := absorb1_byteInv h hu
    have htotal := absorb1_total h hu
    simp only [List.length_cons] at hk hlast
    cases k with
    | zero =>
      rw [absorbAll_buf_frame hinv ht (fun k hk => by omega), absorb1_buf h.bufLen_le hu]
      exact if_pos rfl
    | succ k =>
      have hrest := ih hinv ht (Nat.lt_of_succ_lt_succ hk) (by omega)
      rw [htotal, Nat.add_assoc, Nat.add_comm 1] at hrest
      exact hrest

/-- An overflow is raised at the counter's last value (R139). -/
theorem absorbAll_error_chunkCtr {data : List Byte} {s e : State} (he : absorbAll data s = .error e) :
    e.chunkCtr = BitVec.allOnes 64 := by
  induction data generalizing s with
  | nil => cases he
  | cons x xs ih =>
    rw [absorbAll] at he
    cases hx : absorb1 x s with
    | ok u => rw [hx] at he; exact ih he
    | error e' =>
      rw [hx] at he
      cases he
      have hb := absorb1_error hx
      rcases blockStep_cases { s with bufLen := 0 } with ⟨-, h⟩ | ⟨-, -, h⟩ | ⟨-, hc, h⟩ <;> rw [h] at hb <;> cases hb
      exact hc

theorem ingest_error_chunkCtr {data : List Byte} {s e : State} (hl : s.bufLen.toNat ≤ 64)
    (he : ingest data s = .error e) : e.chunkCtr = BitVec.allOnes 64 := by
  rw [ingest_eq_absorbAll hl] at he
  exact absorbAll_error_chunkCtr he

/-! ### The position (10_state.md R35, R40, 42_context_ingest.md R139, R141) -/

/-- The registers as functions of the position (R141). -/
theorem ContextInv.registers_of_total {s : State} (h : ContextInv s) (hpos : 0 < total s) :
    s.bufLen.toNat = (total s - 1) % 64 + 1 ∧ s.blkIdx.toNat = (total s - 1) / 64 % 16 ∧
    s.chunkCtr.toNat = (total s - 1) / 1024 := by
  have hlen : s.bufLen.toNat ≠ 0 := fun e => by
    have := h.empty_buf (BitVec.eq_of_toNat_eq e)
    omega
  have hlen_le := h.bufLen_le
  have hblk_le := h.blkIdx_le
  rw [total] at hpos ⊢
  omega

theorem ContextInv.total_le {s : State} (h : ContextInv s) : total s ≤ 2 ^ 74 := by
  have hlen_le := h.bufLen_le
  have hblk_le := h.blkIdx_le
  have hctr := s.chunkCtr.isLt
  rw [total]
  omega

theorem ingest_total {data : List Byte} {s t : State} (h : ContextInv s)
    (ht : ingest data { s with st := .accum } = .ok t) : total t = total s + data.length := by
  rw [ingest_eq_absorbAll h.byte.bufLen_le] at ht
  exact (absorbAll_byteInv_and_total h.byte ht).2

/-- Past the bound an `UPDATE` overflows, since no context that meets the invariants stands there (R139). -/
theorem ingest_overflows {data : List Byte} {s : State} (h : ContextInv s) (hbound : 2 ^ 74 < total s + data.length) :
    ∃ e, ingest data { s with st := .accum } = .error e := by
  cases hi : ingest data { s with st := .accum } with
  | error e => exact ⟨e, rfl⟩
  | ok t =>
    have htotal := ingest_total h hi
    have hle := (ingest_contextInv h hi).total_le
    omega

/-! ### The command `UPDATE` -/

/-- What an `UPDATE` outside `FINAL` can do: complete in `ACCUM`, or overflow (R190, R192). -/
theorem exec_update_cases (data : List Byte) {s : State} (hf : s.fault = 0) (hst : s.st ≠ .final) :
    (∃ t, ingest data { s with st := .accum } = .ok t ∧ exec (.update data) s = .next t ∧ t.st = .accum ∧ t.fault = 0) ∨
    ∃ e, ingest data { s with st := .accum } = .error e ∧ exec (.update data) s = .next (takeOverflow s.st e) := by
  cases hi : ingest data { s with st := .accum } with
  | ok t =>
    have hframe := ingest_frame data _ t (.inl hi)
    exact .inl ⟨t, rfl, exec_update_ok s t data hf hst hi, by rw [hframe], by rw [hframe]; exact hf⟩
  | error e => exact .inr ⟨e, rfl, exec_update_error s e data hf hst hi⟩

/-- One byte on a full buffer, where the block step completes. -/
theorem exec_update_full {x : Byte} {s u : State} (hf : s.fault = 0) (hst : s.st ≠ .final) (hfull : s.bufLen = 64)
    (hb : blockStep { s with st := .accum, bufLen := 0 } = .ok u) :
    exec (.update [x]) s = .next { u with buf := s.buf.set 0 x, bufLen := 1 } := by
  have hl : { s with st := .accum }.bufLen.toNat ≤ 64 := by rw [hfull]; decide
  refine exec_update_ok s _ [x] hf hst ?_
  rw [ingest_singleton x hl]
  exact absorb1_full (s := { s with st := .accum }) hfull hb

end Sys2Proof.Machine

/-! ### What a fold leaves, and what it issues (43_merge_stack.md R154 to R156) -/

namespace Sys2Proof.Machine

/-- The stack a fold leaves depends on the stack it finds alone (R154). -/
theorem msFold_stack_congr (c : Cv) (t : BitVec 64) {s u : State} (hstk : s.stk = u.stk) (hsp : s.sp = u.sp)
    (hdraws : s.draws = u.draws) : (msFold c t s).stk = (msFold c t u).stk ∧ (msFold c t s).sp = (msFold c t u).sp := by
  rw [msFold, msFold, ← hsp]
  exact msFoldLoop_congr _ c t s u hstk hsp hdraws

theorem hasParent_parentRequest (left right : Cv) (root : Bool) : hasParent (parentRequest left right root) = true := by
  cases root <;> simp [hasParent, parentRequest, parentFlags, parentFlag, rootFlag]

/-- A fold takes an entry off the stack for each parent compression it issues, and then puts one on (R154, R155). -/
theorem msFold_parents (c : Cv) (t : BitVec 64) {s : State} (h64 : s.sp.toNat ≤ 64) :
    (msFold c t s).coreLog.countP hasParent + (msFold c t s).sp.toNat =
      s.coreLog.countP hasParent + s.sp.toNat + 1 := by
  induction hn : s.sp.toNat generalizing c t s with
  | zero =>
    rw [msFold_push c t s (.inr (BitVec.eq_of_toNat_eq hn)), msPush_coreLog, msPush_sp, sp_succ_toNat _ h64, hn,
      Nat.add_assoc]
  | succ n ih =>
    cases hb : t.getLsbD 0 with
    | true =>
      rw [msFold_push c t s (.inl hb), msPush_coreLog, msPush_sp, sp_succ_toNat _ h64, hn]
      rfl
    | false =>
      have h0 : s.sp ≠ 0 := by intro e; rw [e] at hn; cases hn
      have hpop := issue_msPop_sp_toNat hn
      rw [msFold_merge c t s hb h0, ih _ _ (by rw [hpop]; omega) (hpop _), issue_coreLog, msPop_coreLog,
        List.countP_append, List.countP_singleton, hasParent_parentRequest, if_pos rfl]
      omega

/-- A fold issues parent compressions only (R154). -/
theorem msFold_blocks (c : Cv) (t : BitVec 64) (s : State) :
    (msFold c t s).coreLog.countP (fun r => !hasParent r) = s.coreLog.countP (fun r => !hasParent r) := by
  obtain ⟨stk, sp, issued, hf, hparents⟩ := msFold_frame c t s
  have hnone : issued.countP (fun r => !hasParent r) = 0 := List.countP_eq_zero.mpr fun r hr => by
    obtain ⟨left, right, rfl⟩ := hparents r hr
    simp [hasParent_parentRequest]
  rw [hf, List.countP_append, hnone, Nat.add_zero]

@[simp] theorem msFold_blkIdx (c : Cv) (t : BitVec 64) (s : State) : (msFold c t s).blkIdx = s.blkIdx := by
  obtain ⟨stk, sp, issued, hf, -⟩ := msFold_frame c t s
  rw [hf]

@[simp] theorem msFold_chunkCtr (c : Cv) (t : BitVec 64) (s : State) : (msFold c t s).chunkCtr = s.chunkCtr := by
  obtain ⟨stk, sp, issued, hf, -⟩ := msFold_frame c t s
  rw [hf]

end Sys2Proof.Machine

/-! ### The work an `UPDATE` does (42_context_ingest.md R141) -/

namespace Sys2Proof.Machine

@[simp] theorem beforeFold_blkIdx (s : State) : (beforeFold s).blkIdx = 0 := rfl
@[simp] theorem beforeFold_chunkCtr (s : State) : (beforeFold s).chunkCtr = s.chunkCtr + 1 := rfl
@[simp] theorem beforeFold_sp (s : State) : (beforeFold s).sp = s.sp := rfl
@[simp] theorem beforeFold_coreLog (s : State) : (beforeFold s).coreLog = (compressBlock s).coreLog := rfl

theorem hasParent_blockRequest (s : State) : hasParent (blockRequest s) = false := by
  simp only [hasParent, blockRequest, blockFlags_table]
  split
  · rfl
  · split <;> rfl

/-- The work done, by the counters: sixteen blocks for each completed chunk and the current chunk's own, and for each
completed chunk one parent, less the entries that stand on the stack (R141, R156). -/
structure WorkDone (s : State) : Prop where
  blocks : s.coreLog.countP (fun r => !hasParent r) = 16 * s.chunkCtr.toNat + s.blkIdx.toNat
  parents : s.coreLog.countP hasParent + popcount s.chunkCtr = s.chunkCtr.toNat

theorem compressBlock_blocks (s : State) :
    (compressBlock s).coreLog.countP (fun r => !hasParent r) = s.coreLog.countP (fun r => !hasParent r) + 1 := by
  rw [compressBlock_coreLog, List.countP_append, List.countP_singleton, hasParent_blockRequest]
  rfl

theorem compressBlock_parents (s : State) :
    (compressBlock s).coreLog.countP hasParent = s.coreLog.countP hasParent := by
  rw [compressBlock_coreLog, List.countP_append, List.countP_singleton, hasParent_blockRequest]
  rfl

theorem chunkCtr_succ_toNat {c : BitVec 64} (h : c ≠ BitVec.allOnes 64) : (c + 1).toNat = c.toNat + 1 := by
  have hne : c.toNat ≠ 2 ^ 64 - 1 := fun e => h (BitVec.eq_of_toNat_eq e)
  bv_omega

/-- A chunk completion's fold joins the chunk to the stack (R134, R156). -/
theorem msFold_workDone {c : Cv} {s : State} (hsp : s.sp.toNat = popcount s.chunkCtr) (hb : s.blkIdx = 15)
    (hctr : s.chunkCtr ≠ BitVec.allOnes 64) (h : WorkDone s) : WorkDone (msFold c (s.chunkCtr + 1) (beforeFold s)) := by
  have hsucc := chunkCtr_succ_toNat hctr
  have hblk : s.blkIdx.toNat = 15 := by rw [hb]; rfl
  constructor
  · rw [msFold_blocks, beforeFold_coreLog, compressBlock_blocks, h.blocks, msFold_chunkCtr, beforeFold_chunkCtr, hsucc,
      msFold_blkIdx, beforeFold_blkIdx, hblk]
    change _ = 16 * (s.chunkCtr.toNat + 1) + 0
    omega
  · have hnew := msFold_sp c (s.chunkCtr + 1) (beforeFold s) (succ_ne_zero_of_ne_allOnes hctr)
      (by rw [BitVec.add_sub_cancel]; exact hsp)
    have hfold := msFold_parents c (s.chunkCtr + 1) (s := beforeFold s) (hsp ▸ popcount_le _)
    rw [hnew, beforeFold_coreLog, compressBlock_parents, beforeFold_sp, hsp, h.parents] at hfold
    rw [msFold_chunkCtr, beforeFold_chunkCtr, hsucc]
    exact hfold

theorem blockStep_workDone {s t : State} (hc : ChunkInv s) (h : WorkDone s) (ht : blockStep s = .ok t) : WorkDone t := by
  rcases blockStep_cases s with ⟨-, e⟩ | ⟨hb, hctr, e⟩ | ⟨-, -, e⟩ <;> rw [e] at ht <;> cases ht
  · refine ⟨?_, by rw [compressBlock_parents]; exact h.parents⟩
    rw [compressBlock_blocks, h.blocks, compressBlock_chunkCtr, compressBlock_blkIdx, blkIdx_succ_toNat hc.blkIdx_le,
      Nat.add_assoc]
  · have hfold := msFold_workDone (c := coreAnswer (blockRequest s)) hc.sp_eq hb hctr h
    exact ⟨hfold.blocks, hfold.parents⟩

theorem absorb1_workDone {x : Byte} {s t : State} (hs : ByteInv s) (h : WorkDone s) (ht : absorb1 x s = .ok t) :
    WorkDone t := by
  rcases absorb1_cases hs.bufLen_le ht with ⟨-, rfl⟩ | ⟨-, u, hb, rfl⟩
  · exact ⟨h.blocks, h.parents⟩
  · have hu := blockStep_workDone (hs.chunk.with_buffer s.buf 0) ⟨h.blocks, h.parents⟩ hb
    exact ⟨hu.blocks, hu.parents⟩

theorem absorbAll_workDone {data : List Byte} {s t : State} (hs : ByteInv s) (h : WorkDone s)
    (ht : absorbAll data s = .ok t) : WorkDone t := by
  induction data generalizing s with
  | nil => cases ht; exact h
  | cons x xs ih =>
    obtain ⟨u, hu, ht⟩ := absorbAll_cons_ok ht
    exact ih (absorb1_byteInv hs hu) (absorb1_workDone hs h hu) ht

theorem ingest_workDone {data : List Byte} {s t : State} (hs : ByteInv s) (h : WorkDone s)
    (ht : ingest data s = .ok t) : WorkDone t := by
  rw [ingest_eq_absorbAll hs.bufLen_le] at ht
  exact absorbAll_workDone hs h ht

/-- The blocks before the current one: the last byte absorbed stands in the block that is not compressed yet (R131, R141). -/
theorem ContextInv.blocks_of_total {s : State} (h : ContextInv s) :
    (total s - 1) / 64 = 16 * s.chunkCtr.toNat + s.blkIdx.toNat := by
  have hlen_le := h.bufLen_le
  by_cases hlen : s.bufLen.toNat = 0
  · have h0 := h.empty_buf (BitVec.eq_of_toNat_eq hlen)
    rw [total] at h0 ⊢
    omega
  · rw [total]
    omega

theorem ContextInv.workInv {s : State} (h : ContextInv s) (hw : WorkDone s) : WorkInv s :=
  ⟨fun _ => by rw [hw.blocks, h.blocks_of_total], fun _ => hw.parents⟩

theorem WorkInv.done {s : State} (h : WorkInv s) (hr : Ready s) (hc : ContextInv s) : WorkDone s :=
  ⟨by rw [h.blocks hr, hc.blocks_of_total], h.parents hr⟩

/-- A fresh context has no work behind it (R191). -/
theorem workDone_of_fresh {s : State} (hlog : s.coreLog = []) (hb : s.blkIdx = 0) (hc : s.chunkCtr = 0) : WorkDone s := by
  constructor <;> simp [hlog, hb, hc, popcount]

theorem WorkInv.of_not_ready {s : State} (h : ¬ Ready s) : WorkInv s := ⟨fun hr => absurd hr h, fun hr => absurd hr h⟩

theorem step_workInv {s t : State} (hs : RestInv s) (h : WorkInv s) (ht : step s = .next t) : WorkInv t := by
  rcases step_cases s t ht with ⟨-, rfl⟩ | ⟨-, cmdIn, coreIn, coreOut, rfl⟩ |
    ⟨-, hf, rest, rfl | ⟨f, rfl⟩ | ⟨hst, data, ht | ⟨e, -, rfl⟩⟩ | ⟨-, rfl⟩ | ⟨hst, rfl⟩⟩
  · exact (contextInv_of_fresh rfl rfl rfl rfl rfl).workInv (workDone_of_fresh rfl rfl rfl)
  · exact ⟨h.blocks, h.parents⟩
  · exact (contextInv_of_fresh rfl rfl rfl rfl rfl).workInv (workDone_of_fresh rfl rfl rfl)
  · exact .of_not_ready fun hr => f.code_ne_zero hr.1
  · have hr : Ready s := ⟨hf, hst⟩
    have hc : ContextInv { s with cmdIn := rest } := (hs.context hr).with_streams rest s.coreIn s.coreOut
    have hdone : WorkDone s := h.done hr (hs.context hr)
    exact (ingest_contextInv hc ht).workInv (ingest_workDone hc.byte ⟨hdone.blocks, hdone.parents⟩ ht)
  · exact .of_not_ready fun hr => absurd hr.1 (by simp)
  · exact .of_not_ready fun hr => hr.2 rfl
  · exact .of_not_ready fun hr => hr.2 hst

end Sys2Proof.Machine

/-! ### The obligations on ingest -/

section

open Sys2Proof Sys2Proof.Machine

/-- Settles O12: the loop of ingest stops at once (`ingest_stop`), and what it stores is read back by `writeBytes_getElem?`. -/
theorem updateWithinTheBufferOnlyStores : Obligations.UpdateWithinTheBufferOnlyStores := by
  unfold Obligations.UpdateWithinTheBufferOnlyStores
  intro s data hf hst hfit
  refine ⟨_, exec_update_ok s _ data hf hst (ingest_stop data { s with st := .accum } hfit), rfl,
    storeTail_bufLen_toNat (s := { s with st := .accum }) hfit, fun k hk => ?_, fun j hj => ?_⟩
  · have hlt : s.bufLen.toNat + k < 64 := by omega
    have hin : s.bufLen.toNat ≤ s.bufLen.toNat + k ∧ s.bufLen.toNat + k < s.bufLen.toNat + data.length := by omega
    rw [storeTail_buf, writeBytes_getElem? _ _ _ _ hlt, if_pos hin, Nat.add_sub_cancel_left]
  · exact writeBytes_getElem?_of_outside s.buf hj

/-- Settles O13: of no bytes nothing is stored. -/
theorem emptyUpdateOnlyMovesToAccum : Obligations.EmptyUpdateOnlyMovesToAccum := by
  unfold Obligations.EmptyUpdateOnlyMovesToAccum
  intro s hf hst hl
  have hi : ingest [] { s with st := .accum } = absorbAll [] { s with st := .accum } := ingest_eq_absorbAll hl
  exact exec_update_ok s _ [] hf hst hi

/-- Settles O14: the block step before block 15 is a block compression alone (`blockStep_cases`), with the flags of
`blockFlags_table`. -/
theorem byteOnFullBufferCompressesTheBlock : Obligations.ByteOnFullBufferCompressesTheBlock := by
  unfold Obligations.ByteOnFullBufferCompressesTheBlock
  intro s x hf hst hfull hblk
  have hne : s.blkIdx ≠ 15 := fun e => by rw [e] at hblk; exact absurd hblk (by decide)
  have hflags : blockFlags s.blkIdx = if s.blkIdx = 0 then 0x1 else 0x0 := by rw [blockFlags_table, if_neg hne]
  have hreq : blockRequest { s with st := .accum, bufLen := 0 } =
      ⟨⟨s.cv, leLoad16 s.buf, s.chunkCtr, 64⟩, if s.blkIdx = 0 then 0x1 else 0x0⟩ := by rw [← hflags]; rfl
  rcases blockStep_cases { s with st := .accum, bufLen := 0 } with ⟨-, hb⟩ | ⟨h15, -⟩ | ⟨h15, -⟩
  · refine ⟨_, exec_update_full hf hst hfull hb, ?_, ?_⟩
    · rw [compressBlock_cv, hreq, coreAnswer]
    · rw [← hreq]
      rfl
  · exact absurd h15 hne
  · exact absurd h15 hne

/-- Settles O15: the block step at block 15 folds (`blockStep_cases`); the fold's stack depends on the stack alone
(`msFold_stack_congr`), and the rest is its frame. -/
theorem sixteenthBlockCompletesTheChunk : Obligations.SixteenthBlockCompletesTheChunk := by
  unfold Obligations.SixteenthBlockCompletesTheChunk
  intro s x hf hst hfull hblk hctr
  have hne : s.chunkCtr ≠ BitVec.allOnes 64 := fun e => by rw [e] at hctr; exact absurd hctr (by decide)
  rcases blockStep_cases { s with st := .accum, bufLen := 0 } with ⟨hne15, -⟩ | ⟨-, -, hb⟩ | ⟨-, hlast, -⟩
  · exact absurd hblk hne15
  · have hreq : blockRequest { s with st := .accum, bufLen := 0 } =
        ⟨⟨s.cv, leLoad16 s.buf, s.chunkCtr, 64⟩, 0x2⟩ := by rw [blockRequest, hblk]; rfl
    rw [hreq, coreAnswer] at hb
    obtain ⟨hstk, hsp⟩ := msFold_stack_congr (compress s.cv (leLoad16 s.buf) s.chunkCtr 64 0x2) (s.chunkCtr + 1)
      (s := beforeFold { s with st := .accum, bufLen := 0 }) (u := s) rfl rfl rfl
    obtain ⟨stk, sp, issued, hframe, -⟩ := msFold_frame (compress s.cv (leLoad16 s.buf) s.chunkCtr 64 0x2)
      (s.chunkCtr + 1) (beforeFold { s with st := .accum, bufLen := 0 })
    refine ⟨_, exec_update_full hf hst hfull hb, ?_⟩
    rw [← hstk, ← hsp]
    rw [hframe]
    exact ⟨chunkCtr_succ_toNat hne, rfl, rfl, rfl, rfl, rfl, hf, rfl, rfl, rfl, rfl, rfl, rfl, rfl, rfl, rfl⟩
  · exact absurd hlast hne

/-- Settles O16: `ingest_completes`, `ingest_total`, and the registers of a context that meets the invariants. -/
theorem updateAdvancesThePosition : Obligations.UpdateAdvancesThePosition := by
  unfold Obligations.UpdateAdvancesThePosition
  intro s data hs hr hbound
  have hc := hs.context hr
  obtain ⟨t, ht⟩ := ingest_completes hc hbound
  refine ⟨t, exec_update_ok s t data hr.1 hr.2 ht, (ingest_accum hr hc ht).1, ingest_total hc ht,
    (ingest_contextInv hc ht).registers_of_total, ?_⟩
  rw [ingest_frame data _ t (.inl ht)]
  exact ⟨rfl, hr.1, rfl, rfl, rfl, rfl, rfl, rfl⟩

/-- Settles O17, by the byte-serial form: `absorbAll_buf` and `absorbAll_buf_frame`. -/
theorem absorbedBytesLandAtTheirOffset : Obligations.AbsorbedBytesLandAtTheirOffset := by
  unfold Obligations.AbsorbedBytesLandAtTheirOffset
  intro s data t hs hr hbound hexec
  have hc := hs.context hr
  obtain ⟨u, hu⟩ := ingest_completes hc hbound
  rw [exec_update_ok s u data hr.1 hr.2 hu] at hexec
  cases hexec
  rw [ingest_eq_absorbAll hc.byte.bufLen_le] at hu
  exact ⟨fun k hk hlast => absorbAll_buf hc.byte hu hk hlast, fun j hj => absorbAll_buf_frame hc.byte hu hj⟩

/-- Settles O18: past the bound ingest overflows (`ingest_overflows`), at the counter's last value. -/
theorem updatePastTheBoundRaisesOverflow : Obligations.UpdatePastTheBoundRaisesOverflow := by
  unfold Obligations.UpdatePastTheBoundRaisesOverflow
  intro s data hs hr hbound
  have hc := hs.context hr
  obtain ⟨e, he⟩ := ingest_overflows hc hbound
  have hctr := ingest_error_chunkCtr hc.byte.bufLen_le he
  refine ⟨_, exec_update_error s e data hr.1 hr.2 he, rfl, by rw [takeOverflow_diag, hctr], rfl, ?_⟩
  rw [ingest_frame data _ e (.inr he)]
  exact ⟨rfl, rfl, rfl, rfl, rfl⟩

/-- Settles O24: one rule per pair of state and command; an `UPDATE` that accepts input by `exec_update_cases`, and its
overflow on both sides of the bound by `ingest_completes` and `ingest_overflows`. -/
theorem transitionTable : Obligations.TransitionTable := by
  unfold Obligations.TransitionTable
  intro s hf
  refine ⟨⟨_, exec_init s hf, rfl, hf⟩, fun hst data => ?_, fun hst data => ⟨_, exec_update_final s data hf hst, hst, rfl⟩,
    fun hst => ?_, fun hst => ⟨_, exec_final_final s hf hst, hst, rfl⟩, fun hst => ⟨_, exec_rddig_early s hf hst, rfl, rfl⟩,
    fun hst => ⟨_, exec_rddig s hf hst, hst, hf⟩, ⟨_, step_reset rfl, rfl, rfl⟩⟩
  · rcases exec_update_cases data hf hst with ⟨t, hi, hexec, hacc, hfault⟩ | ⟨e, hi, hexec⟩
    · refine ⟨t, hexec, .inl ⟨hacc, hfault⟩, fun hs => ⟨fun h4 => ?_, fun hbound => ?_⟩⟩
      · rw [hfault] at h4
        exact absurd h4 (by decide)
      · obtain ⟨e, he⟩ := ingest_overflows (hs.context ⟨hf, hst⟩) hbound
        rw [hi] at he
        cases he
    · refine ⟨_, hexec, .inr ⟨rfl, rfl⟩, fun hs => ⟨fun _ => ?_, fun _ => rfl⟩⟩
      by_contra hle
      obtain ⟨t, ht⟩ := ingest_completes (hs.context ⟨hf, hst⟩) (Nat.le_of_not_lt hle)
      rw [hi] at ht
      cases ht
  · obtain ⟨t, hexec, htst, htf, -⟩ := exec_final_frame s hf hst
    exact ⟨t, hexec, htst, htf⟩

/-- Settles O43: `ingest_eq_absorbAll`. -/
theorem ingestEqualsByteSerialForm : Obligations.IngestEqualsByteSerialForm := by
  unfold Obligations.IngestEqualsByteSerialForm
  intro data s hl
  exact ingest_eq_absorbAll hl

/-- Settles O44: if `a` completes, `b` after it ends as ingest of the whole does (`ingest_append`); if `a` overflows, so does
the whole, and the gate drops `b`. -/
theorem incrementalEquivalence : Obligations.IncrementalEquivalence := by
  unfold Obligations.IncrementalEquivalence
  intro s a b hf hst hlen
  have hl : { s with st := .accum }.bufLen.toNat ≤ 64 := hlen
  rcases exec_update_cases a hf hst with ⟨u, hu, hexec, huacc, huf⟩ | ⟨e, he, hexec⟩
  · have hust : u.st ≠ .final := by rw [huacc]; nofun
    have happend : ingest (a ++ b) { s with st := .accum } = ingest b { u with st := .accum } := by
      rw [ingest_append hl hu (ingest_bufLen_le hl hu), ← huacc]
    rcases exec_update_cases b huf hust with ⟨v, hv, hexec', -, hvf⟩ | ⟨e, he, hexec'⟩
    · exact ⟨u, v, v, hexec, hexec', exec_update_ok s v _ hf hst (happend.trans hv),
        .inl ⟨hvf, hvf, ⟨rfl, rfl, rfl, rfl, rfl, rfl, rfl, fun _ _ => rfl⟩⟩⟩
    · exact ⟨u, _, _, hexec, hexec', exec_update_error s e _ hf hst (happend.trans he), .inr ⟨rfl, rfl⟩⟩
  · have hshut : (takeOverflow s.st e).fault ≠ 0 := by rw [takeOverflow_fault]; decide
    rcases exec_update_cases (a ++ b) hf hst with ⟨w, hw, -⟩ | ⟨e', -, hexec'⟩
    · obtain ⟨u, hu⟩ := ingest_front_ok hl hw
      rw [he] at hu
      cases hu
    · exact ⟨_, _, _, hexec, exec_shut _ (.update b) _ hshut rfl, hexec', .inr ⟨rfl, rfl⟩⟩

/-- Settles O54: `WorkDone` is kept by every block step, and the position gives the counters (`ContextInv.blocks_of_total`). -/
theorem workMatchesThePosition : Obligations.WorkMatchesThePosition := by
  unfold Obligations.WorkMatchesThePosition
  intro s t hs h ht
  exact step_workInv hs h ht

end

/-! ### Push and pop, and what a fold issues and writes (43_merge_stack.md R151 to R157) -/

namespace Sys2Proof.Machine

theorem sp_ne_zero_of_toNat_eq_succ {x : BitVec 7} {n : Nat} (h : x.toNat = n + 1) : x ≠ 0 := by
  intro e
  rw [e] at h
  cases h

/-- A push on a stack that is not full stores its value at index `sp` (R151). -/
theorem msPush_getElem?_top (c : Cv) {s : State} (h : s.sp.toNat < 64) : (msPush c s).stk[s.sp.toNat]? = some c := by
  rw [msPush_stk, Vector.getElem?_setIfInBounds, if_pos rfl, if_pos h]

/-- A push writes no entry but the one at index `sp` (R151). -/
theorem msPush_getElem?_of_ne (c : Cv) (s : State) {i : Nat} (hi : i ≠ s.sp.toNat) :
    (msPush c s).stk[i]? = s.stk[i]? := by
  rw [msPush_stk, Vector.getElem?_setIfInBounds, if_neg hi.symm]

theorem parentCv_eq_compress (left right : Cv) (root : Bool) :
    parentCv left right root = compress iv (left ++ right) 0 64 (if root then 0xC else 0x4) := by
  cases root <;> rfl

theorem parentRequest_flags (left right : Cv) (root : Bool) :
    (parentRequest left right root).d = if root then 0xC else 0x4 := by
  cases root <;> rfl

theorem IsParent.flags {r : Request} (h : IsParent r) : r.d = 0x4 := by
  obtain ⟨left, right, rfl⟩ := h
  rfl

theorem ctz_odd (t : BitVec 64) (h : t.getLsbD 0 = true) : ctz t = 0 :=
  ctzNat_odd 64 _ ((getLsbD_zero_eq_true_iff t).mp h)

theorem ctz_even (t : BitVec 64) (h : t.getLsbD 0 = false) (h0 : t ≠ 0) : ctz t = 1 + ctz (t >>> 1) := by
  rw [ctz, ctz, half_toNat]
  exact ctzNat_even 64 _ t.isLt ((getLsbD_zero_eq_false_iff t).mp h) (BitVec.toNat_pos_of_ne_zero h0)

theorem ctz_add_popcount {t : BitVec 64} (h0 : t ≠ 0) : ctz t + popcount t = popcount (t - 1) + 1 := by
  rw [ctz, popcount, popcount, pred_toNat h0]
  exact ctzNat_add_popcountNat 64 _ t.isLt (BitVec.toNat_pos_of_ne_zero h0)

/-- From the stack shape of counter `t - 1` a fold is `ctz t` pops, one for each parent compression it issues, and then a
push: it never stops on an empty stack (R155, R156). -/
theorem msFold_eq_msPush (c : Cv) (t : BitVec 64) (s : State) (h0 : t ≠ 0) (hs : s.sp.toNat = popcount (t - 1)) :
    ∃ cur sp issued, msFold c t s = msPush cur { s with sp := sp, coreLog := s.coreLog ++ issued } ∧
      sp.toNat + ctz t = s.sp.toNat ∧ issued.length = ctz t ∧ ∀ r ∈ issued, IsParent r := by
  induction hn : s.sp.toNat using Nat.strong_induction_on generalizing c t s with
  | _ n ih =>
    cases hb : t.getLsbD 0 with
    | true =>
      rw [msFold_push c t s (.inl hb), ctz_odd t hb]
      exact ⟨c, s.sp, [], by simp, hn, rfl, by simp⟩
    | false =>
      have hhalf := popcount_pred_half t hb h0
      have hpos := sp_ne_zero_of_toNat_eq_succ (hs.trans hhalf)
      have hpop (r : Request) : (issue r (msPop s).2).sp.toNat = popcount (t >>> 1 - 1) :=
        issue_msPop_sp_toNat (hs.trans hhalf) r
      obtain ⟨cur, sp, issued, hfold, hsp, hlen, hparents⟩ :=
        ih _ (by omega) (parentCv (msPop s).1 c false) (t >>> 1)
          (issue (parentRequest (msPop s).1 c false) (msPop s).2) (half_ne_zero t hb h0) (hpop _) (hpop _)
      refine ⟨cur, sp, parentRequest (msPop s).1 c false :: issued, ?_, ?_, ?_,
        List.forall_mem_cons.mpr ⟨⟨_, _, rfl⟩, hparents⟩⟩
      · rw [msFold_merge c t s hb hpos, hfold]
        simp [issue, msPop]
      · rw [ctz_even t hb h0]
        omega
      · rw [ctz_even t hb h0, List.length_cons, hlen, Nat.add_comm]

/-- The push at a fold's end finds the height of counter `t` less one, below 64 (R156, R157). -/
theorem sp_before_push {t : BitVec 64} (h0 : t ≠ 0) {n m : Nat} (hn : n + ctz t = m) (hm : m = popcount (t - 1)) :
    n + 1 = popcount t ∧ n < 64 := by
  have hsum := ctz_add_popcount h0
  have hle := popcount_le t
  omega

/-- An unwind empties the stack with one parent compression per entry, the last with `ROOT` and no other (R159, R161). -/
theorem msUnwind_issued (cand : Cv) (s : State) : ∃ issued,
    (msUnwind cand s).2 = { s with sp := 0, coreLog := s.coreLog ++ issued } ∧ issued.length = s.sp.toNat ∧
    ∀ i r, issued[i]? = some r → r.d = if i + 1 = s.sp.toNat then 0xC else 0x4 := by
  induction hn : s.sp.toNat generalizing cand s with
  | zero =>
    have h0 : s.sp = 0 := BitVec.eq_of_toNat_eq hn
    exact ⟨[], by rw [msUnwind_stop cand s h0, ← h0, List.append_nil], rfl, by simp⟩
  | succ n ih =>
    have h0 := sp_ne_zero_of_toNat_eq_succ hn
    have hlast : (msPop s).2.sp = 0 ↔ 0 + 1 = n + 1 := by
      rw [← issue_sp (parentRequest cand cand true), ← BitVec.toNat_inj, issue_msPop_sp_toNat hn]
      simp
    obtain ⟨issued, hstate, hlen, hflags⟩ := ih (parentCv (msPop s).1 cand (decide ((msPop s).2.sp = 0)))
      (issue (parentRequest (msPop s).1 cand (decide ((msPop s).2.sp = 0))) (msPop s).2) (issue_msPop_sp_toNat hn _)
    refine ⟨parentRequest (msPop s).1 cand (decide ((msPop s).2.sp = 0)) :: issued, ?_, by rw [List.length_cons, hlen], ?_⟩
    · rw [msUnwind_step cand s h0, hstate]
      simp [issue, msPop]
    · intro i r hi
      cases i with
      | zero =>
        obtain rfl := Option.some.inj hi
        simp only [← hlast, parentRequest_flags, decide_eq_true_eq]
      | succ i =>
        rw [hflags i r hi]
        simp

end Sys2Proof.Machine

/-! ### The subtrees of R160 (43_merge_stack.md R160) -/

namespace Sys2Proof.Machine

/-- `SUB(i, k)` of R160, with the fuel that the statement of R160 gives it. -/
def treeValue (data : List Byte) (i k : Nat) (root : Bool) : Cv := subtree data k i k root

theorem subtree_leaf (data : List Byte) (fuel i : Nat) {k : Nat} (hk : k ≤ 1) (root : Bool) :
    subtree data fuel i k root = chunkValue data i root := by
  cases fuel with
  | zero => rfl
  | succ fuel => rw [subtree, if_pos hk]

theorem subtree_node (data : List Byte) (fuel i : Nat) {k : Nat} (hk : 1 < k) (root : Bool) :
    subtree data (fuel + 1) i k root = parentCv (subtree data fuel i (2 ^ (k - 1).log2) false)
      (subtree data fuel (i + 2 ^ (k - 1).log2) (k - 2 ^ (k - 1).log2) false) root := by
  rw [subtree, if_neg (Nat.not_le_of_lt hk), parentCv_eq_compress]

/-- More fuel than chunks changes nothing. -/
theorem subtree_fuel (data : List Byte) {fuel fuel' k : Nat} (hk : k ≤ fuel) (hk' : k ≤ fuel') (i : Nat) (root : Bool) :
    subtree data fuel i k root = subtree data fuel' i k root := by
  induction k using Nat.strong_induction_on generalizing fuel fuel' i root with
  | _ k ih =>
    by_cases h1 : k ≤ 1
    · rw [subtree_leaf data fuel i h1, subtree_leaf data fuel' i h1]
    · obtain ⟨n, rfl⟩ : ∃ n, fuel = n + 1 := ⟨fuel - 1, by omega⟩
      obtain ⟨n', rfl⟩ : ∃ n, fuel' = n + 1 := ⟨fuel' - 1, by omega⟩
      have hpos : 0 < 2 ^ (k - 1).log2 := Nat.two_pow_pos _
      have hlt : 2 ^ (k - 1).log2 ≤ k - 1 := Nat.log2_self_le (by omega)
      rw [subtree_node data n i (by omega), subtree_node data n' i (by omega),
        ih _ (by omega) (fuel := n) (fuel' := n') (by omega) (by omega),
        ih _ (by omega) (fuel := n) (fuel' := n') (by omega) (by omega)]

theorem treeValue_one (data : List Byte) (i : Nat) (root : Bool) : treeValue data i 1 root = chunkValue data i root :=
  subtree_leaf data 1 i (Nat.le_refl 1) root

/-- A full left subtree joined with no more chunks than it has is the subtree over both (R160). -/
theorem treeValue_join (data : List Byte) (i : Nat) {level m : Nat} (hpos : 0 < m) (hm : m ≤ 2 ^ level) (root : Bool) :
    parentCv (treeValue data i (2 ^ level) false) (treeValue data (i + 2 ^ level) m false) root =
      treeValue data i (2 ^ level + m) root := by
  have hlevel : 0 < 2 ^ level := Nat.two_pow_pos level
  have hlog : (2 ^ level + m - 1).log2 = level := (Nat.log2_eq_iff (by omega)).mpr (by rw [Nat.pow_succ]; omega)
  rw [treeValue, treeValue, treeValue, subtree_fuel data (Nat.le_refl (2 ^ level + m)) (Nat.le_succ _),
    subtree_node data _ i (by omega), hlog, Nat.add_sub_cancel_left,
    subtree_fuel data (Nat.le_refl _) (Nat.le_add_right (2 ^ level) m),
    subtree_fuel data (Nat.le_refl _) (Nat.le_add_left m (2 ^ level))]

/-- Two neighbouring full subtrees of a level are one of the next. -/
theorem treeValue_join_pair (data : List Byte) (level k : Nat) :
    parentCv (treeValue data (2 * k * 2 ^ level) (2 ^ level) false)
        (treeValue data ((2 * k + 1) * 2 ^ level) (2 ^ level) false) false =
      treeValue data (k * 2 ^ (level + 1)) (2 ^ (level + 1)) false := by
  rw [Nat.succ_mul (2 * k), treeValue_join data _ (Nat.two_pow_pos level) (Nat.le_refl _), Nat.two_pow_succ]
  congr 1
  ring

/-- The subtrees that stand on the stack after `n` subtrees of `2 ^ level` chunks, top first: one for each 1 bit of `n`
(R156). -/
def pendingTrees (data : List Byte) (level n : Nat) : List Cv :=
  if n = 0 then []
  else if n % 2 = 0 then pendingTrees data (level + 1) (n / 2)
  else treeValue data ((n - 1) * 2 ^ level) (2 ^ level) false :: pendingTrees data (level + 1) (n / 2)
termination_by n

@[simp] theorem pendingTrees_zero (data : List Byte) (level : Nat) : pendingTrees data level 0 = [] := by
  rw [pendingTrees, if_pos rfl]

theorem pendingTrees_double (data : List Byte) (level n : Nat) :
    pendingTrees data level (2 * n) = pendingTrees data (level + 1) n := by
  cases n with
  | zero => simp
  | succ n =>
    rw [pendingTrees, if_neg (by omega), if_pos (by omega)]
    congr 1
    omega

theorem pendingTrees_double_succ (data : List Byte) (level n : Nat) : pendingTrees data level (2 * n + 1) =
    treeValue data (2 * n * 2 ^ level) (2 ^ level) false :: pendingTrees data (level + 1) n := by
  rw [pendingTrees, if_neg (by omega), if_neg (by omega), Nat.add_sub_cancel]
  congr 2
  omega

theorem pendingTrees_eq_nil_iff {data : List Byte} {level n : Nat} : pendingTrees data level n = [] ↔ n = 0 := by
  induction n using Nat.strong_induction_on generalizing level with
  | _ n ih =>
    obtain ⟨k, rfl | rfl⟩ := Nat.even_or_odd' n
    · rcases Nat.eq_zero_or_pos k with rfl | hk
      · simp
      · rw [pendingTrees_double, ih k (by omega)]
        omega
    · simp [pendingTrees_double_succ]

theorem unwindValue_cons (left : Cv) (older : List Cv) (cand : Cv) :
    unwindValue (left :: older) cand = unwindValue older (parentCv left cand (decide (older = []))) := by
  rw [parentCv_eq_compress]
  cases older <;> rfl

/-- The unwind of the pending subtrees joins them with the chunks after them into the whole tree, `ROOT` on its outermost
compression: that of the candidate if nothing is pending (R158, R160). -/
theorem unwindValue_pendingTrees (data : List Byte) {level n m : Nat} (hpos : 0 < m) (hm : m ≤ 2 ^ level) :
    unwindValue (pendingTrees data level n) (treeValue data (n * 2 ^ level) m (decide (n = 0))) =
      treeValue data 0 (n * 2 ^ level + m) true := by
  induction n using Nat.strong_induction_on generalizing level m with
  | _ n ih =>
    obtain ⟨k, rfl | rfl⟩ := Nat.even_or_odd' n
    · rcases Nat.eq_zero_or_pos k with rfl | hk
      · simp [unwindValue]
      · have hdouble : 2 * k * 2 ^ level = k * 2 ^ (level + 1) := by ring
        have hroot : decide (2 * k = 0) = decide (k = 0) := by simp
        rw [pendingTrees_double, hdouble, hroot]
        exact ih k (by omega) hpos (by rw [Nat.pow_succ]; omega)
    · have hstart : (2 * k + 1) * 2 ^ level = 2 * k * 2 ^ level + 2 ^ level := by ring
      have hdouble : 2 * k * 2 ^ level = k * 2 ^ (level + 1) := by ring
      have hroot : decide (pendingTrees data (level + 1) k = []) = decide (k = 0) :=
        decide_eq_decide.mpr pendingTrees_eq_nil_iff
      rw [pendingTrees_double_succ, unwindValue_cons, hroot, decide_eq_false (Nat.succ_ne_zero (2 * k)), hstart,
        treeValue_join data _ hpos hm, hdouble, Nat.add_assoc]
      exact ih k (by omega) (by omega) (by rw [Nat.pow_succ]; omega)

end Sys2Proof.Machine

/-! ### The stack as a list of subtrees (43_merge_stack.md R151 to R158) -/

namespace Sys2Proof.Machine

/-- The valid entries of the stack, top first (R29, R30). -/
def entries (s : State) : List Cv := (s.stk.toList.take s.sp.toNat).reverse

/-- An entry counted by `sp` is the top over the entries below it. -/
theorem entries_of_top {s u : State} {c : Cv} (hsp : s.sp.toNat = u.sp.toNat + 1) (htop : s.stk[u.sp.toNat]? = some c)
    (hbelow : ∀ i, i < u.sp.toNat → s.stk[i]? = u.stk[i]?) : entries s = c :: entries u := by
  have hrest : s.stk.toList.take u.sp.toNat = u.stk.toList.take u.sp.toNat := List.ext_getElem? fun i => by
    rw [List.getElem?_take, List.getElem?_take]
    split
    · rename_i hi
      simpa using hbelow i hi
    · rfl
  have htop' : s.stk.toList[u.sp.toNat]? = some c := by simpa using htop
  rw [entries, entries, hsp, List.take_add_one, htop', hrest]
  simp

theorem entries_msPush (c : Cv) {s : State} (h : s.sp.toNat < 64) : entries (msPush c s) = c :: entries s :=
  entries_of_top (sp_succ_toNat _ (Nat.le_of_lt h)) (msPush_getElem?_top c h) fun _ hi =>
    msPush_getElem?_of_ne c s (Nat.ne_of_lt hi)

theorem entries_msPop {s : State} (h0 : s.sp ≠ 0) (h64 : s.sp.toNat ≤ 64) :
    entries s = (msPop s).1 :: entries (msPop s).2 := by
  have hpos := BitVec.toNat_pos_of_ne_zero h0
  have hpred : (msPop s).2.sp.toNat = s.sp.toNat - 1 := sp_pred_toNat _ h0
  refine entries_of_top (by omega) ?_ fun _ _ => rfl
  rw [hpred]
  exact (msPop_fst s h0 h64).symm

theorem entries_eq_nil_iff {s : State} : entries s = [] ↔ s.sp = 0 := by
  simp [entries, ← BitVec.toNat_inj]

/-- The unwind computes `unwindValue` of the valid entries (R158). -/
theorem msUnwind_fst (cand : Cv) {s : State} (h64 : s.sp.toNat ≤ 64) :
    (msUnwind cand s).1 = unwindValue (entries s) cand := by
  induction hn : s.sp.toNat generalizing cand s with
  | zero =>
    have h0 : s.sp = 0 := BitVec.eq_of_toNat_eq hn
    rw [msUnwind_stop cand s h0, entries_eq_nil_iff.mpr h0]
    rfl
  | succ n ih =>
    have h0 := sp_ne_zero_of_toNat_eq_succ hn
    have hpop (r : Request) := issue_msPop_sp_toNat hn r
    have hroot : decide (entries (msPop s).2 = []) = decide ((msPop s).2.sp = 0) :=
      decide_eq_decide.mpr entries_eq_nil_iff
    rw [msUnwind_step cand s h0, ih _ (by rw [hpop]; omega) (hpop _), entries_msPop h0 h64, unwindValue_cons, hroot]
    rfl

/-- A fold of subtree number `k` of its level, over the subtrees before it, leaves those up to and including it (R154, R156,
R160). -/
theorem entries_msFold (data : List Byte) {level k : Nat} {u : BitVec 64} {s : State} (hu : u.toNat = k + 1)
    (hsp : s.sp.toNat = popcount (u - 1)) (hs : entries s = pendingTrees data level k) :
    entries (msFold (treeValue data (k * 2 ^ level) (2 ^ level) false) u s) = pendingTrees data level (k + 1) := by
  induction k using Nat.strong_induction_on generalizing level u s with
  | _ k ih =>
    have h0 : u ≠ 0 := by intro e; rw [e] at hu; cases hu
    have hle := popcount_le u
    obtain ⟨j, rfl | rfl⟩ := Nat.even_or_odd' k
    · have hb : u.getLsbD 0 = true := (getLsbD_zero_eq_true_iff u).mpr (by omega)
      have hbits := popcount_odd u hb
      rw [msFold_push _ _ _ (.inl hb), entries_msPush _ (by omega), hs, pendingTrees_double, pendingTrees_double_succ]
    · have hb : u.getLsbD 0 = false := (getLsbD_zero_eq_false_iff u).mpr (by omega)
      have hbits := popcount_pred_half u hb h0
      have hpop (r : Request) : (issue r (msPop s).2).sp.toNat = popcount (u >>> 1 - 1) :=
        issue_msPop_sp_toNat (hsp.trans hbits) r
      have hsp0 := sp_ne_zero_of_toNat_eq_succ (hsp.trans hbits)
      have h64 : s.sp.toNat ≤ 64 := hsp ▸ popcount_le _
      rw [entries_msPop hsp0 h64, pendingTrees_double_succ] at hs
      obtain ⟨htop, hrest⟩ := List.cons.inj hs
      rw [msFold_merge _ _ _ hb hsp0, htop, treeValue_join_pair, show 2 * j + 1 + 1 = 2 * (j + 1) by ring,
        pendingTrees_double]
      exact ih j (by omega) (by rw [half_toNat]; omega) (hpop _) hrest

end Sys2Proof.Machine

/-! ### The live chunk (42_context_ingest.md R133, R134, 43_merge_stack.md R160) -/

namespace Sys2Proof.Machine

theorem chunkFrom_block (t : BitVec 64) (root : Bool) (fuel : Nat) (start : Bool) (h : Cv) {bytes : List Byte}
    (hlen : 64 < bytes.length) : chunkFrom t root (fuel + 1) start h bytes =
      chunkFrom t root fuel false
        (compress h (leLoad16 (paddedBlock (bytes.take 64))) t 64 (if start then 0x1 else 0x0)) (bytes.drop 64) := by
  rw [chunkFrom, if_pos hlen]

theorem chunkFrom_last (t : BitVec 64) (root : Bool) (fuel : Nat) (start : Bool) (h : Cv) {bytes : List Byte}
    (hlen : bytes.length ≤ 64) : chunkFrom t root (fuel + 1) start h bytes =
      compress h (leLoad16 (paddedBlock bytes)) t (BitVec.ofNat 7 bytes.length)
        ((if start then 0x1 else 0x0) ||| 0x2 ||| if root then 0x8 else 0x0) := by
  rw [chunkFrom, if_neg (Nat.not_lt_of_le hlen)]

/-- The offset of the first byte of the pending block (R35). -/
def blockStart (s : State) : Nat := 1024 * s.chunkCtr.toNat + 64 * s.blkIdx.toNat

theorem total_eq_blockStart_add (s : State) : total s = blockStart s + s.bufLen.toNat := rfl

/-- The bytes of the input from the pending block to the end of its chunk. -/
def chunkRest (data : List Byte) (s : State) : List Byte := (data.drop (blockStart s)).take (1024 - 64 * s.blkIdx.toNat)

/-- Between two block steps: the live chaining value is the one from which the rest of the chunk gives the chunk's value, and
the stack holds the subtrees of the completed chunks (R156, R160). -/
structure ChunkTree (data : List Byte) (s : State) : Prop where
  live : ∀ root, chunkFrom s.chunkCtr root (16 - s.blkIdx.toNat) (decide (s.blkIdx = 0)) s.cv (chunkRest data s) =
    chunkValue data s.chunkCtr.toNat root
  stack : entries s = pendingTrees data 0 s.chunkCtr.toNat

/-- At a chunk's start the live value is `IV` (R134). -/
theorem chunkFrom_start (data : List Byte) {s : State} (hb : s.blkIdx = 0) (hcv : s.cv = iv) (root : Bool) :
    chunkFrom s.chunkCtr root (16 - s.blkIdx.toNat) (decide (s.blkIdx = 0)) s.cv (chunkRest data s) =
      chunkValue data s.chunkCtr.toNat root := by
  rw [chunkValue, chunkRest, blockStart, hb, hcv, BitVec.ofNat_toNat, BitVec.setWidth_eq]
  rfl

/-- The bytes of the pending block that the input has. -/
def pendingBlock (data : List Byte) (s : State) : List Byte := (data.drop (blockStart s)).take 64

theorem pendingBlock_length (data : List Byte) (s : State) :
    (pendingBlock data s).length = min 64 (data.length - blockStart s) := by
  rw [pendingBlock, List.length_take, List.length_drop]

theorem take_chunkRest (data : List Byte) {s : State} (hb : s.blkIdx.toNat ≤ 15) :
    (chunkRest data s).take 64 = pendingBlock data s := by
  rw [chunkRest, pendingBlock, List.take_take, Nat.min_eq_left (by omega)]

/-- A block that is not the chunk's last moves the chunk on by one block (R133). -/
theorem compressBlock_chunkTree {data : List Byte} {s : State} (h : ChunkTree data s) (hb : s.blkIdx.toNat < 15)
    (hbuf : s.buf = paddedBlock (pendingBlock data s)) (hmore : blockStart s + 64 < data.length) :
    ChunkTree data (compressBlock s) := by
  refine ⟨fun root => ?_, h.stack⟩
  have hsucc := blkIdx_succ_toNat (Nat.le_of_lt hb)
  have hlen : 64 < (chunkRest data s).length := by rw [chunkRest, List.length_take, List.length_drop]; omega
  have hfuel : 16 - s.blkIdx.toNat = 16 - (s.blkIdx + 1).toNat + 1 := by omega
  have hne : s.blkIdx + 1 ≠ 0 := fun e => by rw [e] at hsucc; cases hsucc
  have hne15 : s.blkIdx ≠ 15 := fun e => by rw [e] at hb; exact absurd hb (by decide)
  have hrest : chunkRest data (compressBlock s) = (chunkRest data s).drop 64 := by
    rw [chunkRest, chunkRest, List.drop_take, List.drop_drop, blockStart, blockStart, compressBlock_blkIdx,
      compressBlock_chunkCtr, hsucc]
    congr 1
  have hlive := h.live root
  rw [hfuel, chunkFrom_block _ _ _ _ _ hlen, take_chunkRest data (Nat.le_of_lt hb), ← hbuf] at hlive
  rw [hrest, compressBlock_blkIdx, decide_eq_false hne, compressBlock_cv, coreAnswer, blockRequest, blockFlags_table,
    if_neg hne15]
  simpa using hlive

/-- The chunk's last block gives the chunk's value (R134). -/
theorem coreAnswer_lastBlock {data : List Byte} {s : State} (h : ChunkTree data s) (hb : s.blkIdx = 15)
    (hbuf : s.buf = paddedBlock (pendingBlock data s)) (hmore : blockStart s + 64 < data.length) :
    coreAnswer (blockRequest s) = chunkValue data s.chunkCtr.toNat false := by
  have hrest : chunkRest data s = pendingBlock data s := by rw [chunkRest, hb]; rfl
  have hlen : (pendingBlock data s).length = 64 := by rw [pendingBlock_length]; omega
  have hlive := h.live false
  rw [hrest, hb] at hlive
  rw [← hlive, coreAnswer, blockRequest, hb, hbuf]
  change _ = chunkFrom s.chunkCtr false (0 + 1) false s.cv (pendingBlock data s)
  rw [chunkFrom_last _ _ _ _ _ (Nat.le_of_eq hlen), hlen]
  rfl

theorem blockStep_chunkTree {data : List Byte} {s t : State} (hc : ChunkInv s) (h : ChunkTree data s)
    (hbuf : s.buf = paddedBlock (pendingBlock data s)) (hmore : blockStart s + 64 < data.length)
    (ht : blockStep s = .ok t) : ChunkTree data t := by
  rcases blockStep_cases s with ⟨hb, e⟩ | ⟨hb, hctr, e⟩ | ⟨-, -, e⟩ <;> rw [e] at ht <;> cases ht
  · have hlt : s.blkIdx.toNat < 15 := Nat.lt_of_le_of_ne hc.blkIdx_le fun e => hb (BitVec.eq_of_toNat_eq e)
    exact compressBlock_chunkTree h hlt hbuf hmore
  · have hsucc := chunkCtr_succ_toNat hctr
    refine ⟨chunkFrom_start data (by simp) rfl, ?_⟩
    have hfold := entries_msFold data (level := 0) (s := beforeFold s) hsucc
      (by rw [BitVec.add_sub_cancel]; exact hc.sp_eq) h.stack
    rw [Nat.pow_zero, Nat.mul_one, treeValue_one, ← coreAnswer_lastBlock h hb hbuf hmore] at hfold
    refine hfold.trans ?_
    dsimp only
    rw [msFold_chunkCtr, beforeFold_chunkCtr, hsucc]

end Sys2Proof.Machine

/-! ### The digest of what was absorbed (42_context_ingest.md R136, 44_finalizer.md R170 to R176) -/

namespace Sys2Proof.Machine

/-- After the first `total s` bytes of an input: the chunk and the stack are those of R160's tree, and the buffer holds the
bytes of the pending block. -/
structure Absorbed (data : List Byte) (s : State) : Prop where
  byte : ByteInv s
  tree : ChunkTree data s
  buf : ∀ i, i < s.bufLen.toNat → s.buf[i]? = data[blockStart s + i]?

theorem paddedBlock_getElem (bytes : List Byte) {i : Nat} (hi : i < 64) :
    (paddedBlock bytes)[i] = bytes[i]?.getD 0 := by
  rw [paddedBlock, Vector.getElem_ofFn, List.getD_eq_getElem?_getD]

/-- The buffer with its stale bytes zeroed is the padded block, where the input has no more bytes of it (R171). -/
theorem Absorbed.padBuffer_eq {data : List Byte} {s : State} (h : Absorbed data s)
    (hlen : (pendingBlock data s).length = s.bufLen.toNat) :
    padBuffer s.buf s.bufLen.toNat = paddedBlock (pendingBlock data s) := by
  refine Vector.ext fun i hi => ?_
  rw [padBuffer_getElem _ _ _ hi, paddedBlock_getElem _ hi]
  by_cases hlive : i < s.bufLen.toNat
  · have hbyte := h.buf i hlive
    rw [Vector.getElem?_eq_getElem hi] at hbyte
    rw [if_pos hlive, pendingBlock, List.getElem?_take_of_lt hi, List.getElem?_drop, ← hbyte, Option.getD_some]
  · rw [if_neg hlive, List.getElem?_eq_none (by omega), Option.getD_none]

/-- A full buffer has no stale bytes. -/
theorem padBuffer_full (buf : Buffer) : padBuffer buf 64 = buf := Vector.ext fun i hi => by
  rw [padBuffer_getElem _ _ _ hi, if_pos hi]

/-- With a full buffer and bytes still to come, the block step compresses the whole pending block (R131). -/
theorem Absorbed.blockStep_chunkTree {data : List Byte} {s u : State} (h : Absorbed data s) (hfull : s.bufLen = 64)
    (hmore : total s < data.length) (hu : blockStep { s with bufLen := 0 } = .ok u) : ChunkTree data u := by
  have hbufLen : s.bufLen.toNat = 64 := by rw [hfull]; rfl
  rw [total_eq_blockStart_add, hbufLen] at hmore
  have hpad := h.padBuffer_eq (by rw [pendingBlock_length, hbufLen]; omega)
  rw [hbufLen, padBuffer_full] at hpad
  exact Machine.blockStep_chunkTree (h.byte.chunk.with_buffer s.buf 0) ⟨h.tree.live, h.tree.stack⟩ hpad hmore hu

/-- One more byte of the input, stored or with the block step before it (R136). -/
theorem absorb1_absorbed {data : List Byte} {x : Byte} {s t : State} (h : Absorbed data s)
    (hx : data[total s]? = some x) (ht : absorb1 x s = .ok t) : Absorbed data t := by
  have hbyte := absorb1_byteInv h.byte ht
  have htotal := absorb1_total h.byte ht
  have hmore : total s < data.length := (List.getElem?_eq_some_iff.mp hx).1
  rcases absorb1_cases h.byte.bufLen_le ht with ⟨hlt, rfl⟩ | ⟨hfull, u, hu, rfl⟩
  · refine ⟨hbyte, ⟨h.tree.live, h.tree.stack⟩, fun i hi => ?_⟩
    change i < (s.bufLen + 1).toNat at hi
    change (s.buf.setIfInBounds s.bufLen.toNat x)[i]? = data[blockStart s + i]?
    rw [bufLen_succ _ hlt] at hi
    rw [Vector.getElem?_setIfInBounds]
    by_cases hnew : s.bufLen.toNat = i
    · rw [if_pos hnew, if_pos hlt, ← hnew, ← total_eq_blockStart_add, hx]
    · rw [if_neg hnew]
      exact h.buf i (by omega)
  · have htree := h.blockStep_chunkTree hfull hmore hu
    refine ⟨hbyte, ⟨htree.live, htree.stack⟩, fun i hi => ?_⟩
    obtain rfl : i = 0 := Nat.lt_one_iff.mp hi
    have hstart := Nat.succ.inj htotal
    rw [← hstart] at hx
    exact (Vector.getElem?_set_self (by decide : 0 < 64)).trans hx.symm

theorem absorbAll_absorbed {data rest : List Byte} {s t : State} (h : Absorbed data s) (hrest : data.drop (total s) = rest)
    (ht : absorbAll rest s = .ok t) : Absorbed data t := by
  induction rest generalizing s with
  | nil => cases ht; exact h
  | cons x xs ih =>
    obtain ⟨u, hu, ht⟩ := absorbAll_cons_ok ht
    have hx : data[total s]? = some x := by rw [← Nat.add_zero (total s), ← List.getElem?_drop, hrest]; rfl
    have hxs : data.drop (total u) = xs := by
      rw [absorb1_total h.byte hu, ← List.drop_drop, hrest]
      rfl
    exact ih (absorb1_absorbed h hx hu) hxs ht

/-- A fresh context has absorbed nothing of any input (R191). -/
theorem absorbed_of_fresh (data : List Byte) {s : State} (hl : s.bufLen = 0) (hb : s.blkIdx = 0) (hc : s.chunkCtr = 0)
    (hcv : s.cv = iv) (hsp : s.sp = 0) : Absorbed data s where
  byte := ⟨(contextInv_of_fresh hl hb hc hcv hsp).chunk, by rw [hl]; decide⟩
  tree := ⟨chunkFrom_start data hb hcv, by rw [entries_eq_nil_iff.mpr hsp, hc]; exact (pendingTrees_zero data 0).symm⟩
  buf i hi := by rw [hl] at hi; exact absurd hi (Nat.not_lt_zero i)

/-- The flags of `FINAL`'s compression as those of a chunk's last block (R173). -/
theorem finalFlags_eq (blkIdx : BitVec 5) (sp : BitVec 7) : finalFlags blkIdx sp =
    (if decide (blkIdx = 0) then 0x1 else 0x0) ||| 0x2 ||| if decide (sp = 0) then 0x8 else 0x0 := by
  rw [finalFlags_table]
  simp only [decide_eq_true_eq]
  split <;> split <;> rfl

/-- The last block's compression gives the value of the last chunk, with `ROOT` if it is the only one (R172 to R174). -/
theorem Absorbed.coreAnswer_finalRequest {data : List Byte} {s : State} (h : Absorbed data s)
    (hend : total s = data.length) : coreAnswer (finalRequest (padded s)) =
      chunkValue data s.chunkCtr.toNat (decide (s.chunkCtr.toNat = 0)) := by
  have hblk := h.byte.chunk.blkIdx_le
  have hle := h.byte.bufLen_le
  have hlen : (pendingBlock data s).length = s.bufLen.toNat := by
    rw [pendingBlock_length, ← hend, total_eq_blockStart_add]
    omega
  have hrest : chunkRest data s = pendingBlock data s := by
    have hdrop : (data.drop (blockStart s)).length ≤ 64 := by
      rw [List.length_drop, ← hend, total_eq_blockStart_add]
      omega
    rw [chunkRest, pendingBlock, List.take_of_length_le hdrop, List.take_of_length_le (by omega)]
  have hroot : decide (s.sp = 0) = decide (s.chunkCtr.toNat = 0) :=
    decide_eq_decide.mpr (entries_eq_nil_iff.symm.trans (h.tree.stack ▸ pendingTrees_eq_nil_iff))
  have hfuel : 16 - s.blkIdx.toNat = 15 - s.blkIdx.toNat + 1 := by omega
  rw [← hroot, ← h.tree.live, hrest, hfuel, chunkFrom_last _ _ _ _ _ (by omega), hlen, BitVec.ofNat_toNat,
    BitVec.setWidth_eq, ← h.padBuffer_eq hlen, coreAnswer, finalRequest, finalFlags_eq]
  rfl

/-- `FINALIZE` after the whole input latches the digest of R160's tree. -/
theorem finalize_digest_eq_treeDigest {data : List Byte} {s : State} (h : Absorbed data s) (hend : total s = data.length)
    (hcount : chunkCount data = s.chunkCtr.toNat + 1) : (finalize s).digest = treeDigest data := by
  have hunwind := unwindValue_pendingTrees data (level := 0) (n := s.chunkCtr.toNat) Nat.one_pos (Nat.le_refl 1)
  rw [Nat.pow_zero, Nat.mul_one, treeValue_one, ← h.tree.stack, ← h.coreAnswer_finalRequest hend, treeValue,
    ← hcount] at hunwind
  rw [treeDigest, ← hunwind, finalize_eq]
  dsimp only
  rw [msUnwind_fst _ (by exact h.byte.chunk.sp_le)]
  rfl

theorem ContextInv.chunkCount_eq {data : List Byte} {s : State} (h : ContextInv s) (hend : total s = data.length) :
    chunkCount data = s.chunkCtr.toNat + 1 := by
  have hblocks := h.blocks_of_total
  have hblk := h.blkIdx_le
  rw [chunkCount, ← hend]
  omega

end Sys2Proof.Machine

/-! ### The obligations on the merge stack -/

section

open Sys2Proof Sys2Proof.Machine

/-- Settles O39: the fold is `ctz t` pops and one push (`msFold_eq_msPush`), and that push writes the new top alone. -/
theorem foldKeepsTheStackShape : Obligations.FoldKeepsTheStackShape := by
  unfold Obligations.FoldKeepsTheStackShape
  intro c t s h0 hs
  obtain ⟨cur, sp, issued, hfold, hsp, hlen, hparents⟩ := msFold_eq_msPush c t s h0 hs
  obtain ⟨hshape, -⟩ := sp_before_push h0 hsp hs
  have hnew := msFold_sp c t s h0 hs
  refine ⟨msFold c t s, issued, rfl, hnew, hnew ▸ popcount_le t, fun i hi => ?_, ?_, hlen, fun r hr => (hparents r hr).flags⟩
  · rw [hfold]
    exact msPush_getElem?_of_ne cur _ (show i ≠ sp.toNat by omega)
  · rw [hfold]
    rfl

/-- Settles O41: by induction on the number of entries, in `msUnwind_issued`. -/
theorem unwindIssuesOneRootAtTheEnd : Obligations.UnwindIssuesOneRootAtTheEnd := by
  unfold Obligations.UnwindIssuesOneRootAtTheEnd
  exact msUnwind_issued

/-- Settles O42: a chunk completion is the fold of `msFold_eq_msPush` at the incremented counter, whose push finds `sp` below
64 (`sp_before_push`); between steps the height is R40's (`step_restInv`), full at the largest counter alone. -/
theorem stackNeverOverflows : Obligations.StackNeverOverflows := by
  unfold Obligations.StackNeverOverflows
  refine ⟨fun s hs hctr => ?_, fun s t hs ht hr => ?_⟩
  · have h0 := succ_ne_zero_of_ne_allOnes hctr
    have hpred : s.sp.toNat = popcount (s.chunkCtr + 1 - 1) := by rw [BitVec.add_sub_cancel]; exact hs
    obtain ⟨cur, sp, issued, hfold, hsp, -⟩ :=
      msFold_eq_msPush s.cv (s.chunkCtr + 1) { s with chunkCtr := s.chunkCtr + 1 } h0 hpred
    refine ⟨cur, { s with chunkCtr := s.chunkCtr + 1, sp := sp, coreLog := s.coreLog ++ issued }, ?_, rfl, hsp,
      (sp_before_push h0 hsp hpred).2⟩
    rw [completeChunk, if_neg hctr, ← hfold]
    rfl
  · have hsp := ((step_restInv hs ht).context hr).sp_eq
    exact ⟨hsp, hsp ▸ popcount_le _, fun hfull => popcount_eq_full _ (hsp.symm.trans hfull)⟩

/-- Settles O47: byte by byte the context keeps the tree of what it absorbed (`absorbAll_absorbed`), and `FINAL` joins it
(`finalize_digest_eq_treeDigest`). -/
theorem digestIsTheChunkTree : Obligations.DigestIsTheChunkTree := by
  unfold Obligations.DigestIsTheChunkTree
  intro s data hf hbound
  have hfresh : ContextInv (freshContext s) := contextInv_of_fresh rfl rfl rfl rfl rfl
  have hready : Ready (freshContext s) := ⟨hf, nofun⟩
  have hstart : total (freshContext s) = 0 := rfl
  obtain ⟨u, hu⟩ := ingest_completes hfresh (data := data) (by omega)
  obtain ⟨-, huready, huctx⟩ := ingest_accum hready hfresh hu
  have hend : total u = data.length := by rw [ingest_total hfresh hu, hstart, Nat.zero_add]
  have hresp : u.respOut = s.respOut := by rw [ingest_frame data _ u (.inl hu)]; rfl
  obtain ⟨t, ht, -, -, -, -, -, -, -, hdigest, hout, -⟩ := exec_final_frame u huready.1 huready.2
  have habsorbed : Absorbed data u := by
    rw [ingest_eq_absorbAll hfresh.byte.bufLen_le] at hu
    exact absorbAll_absorbed (s := { freshContext s with st := .accum }) (absorbed_of_fresh data rfl rfl rfl rfl rfl)
      rfl hu
  have htree := finalize_digest_eq_treeDigest habsorbed hend (huctx.chunkCount_eq hend)
  refine ⟨t, ?_, by rw [hdigest, htree], by rw [hout, htree, hresp]⟩
  rw [runCommands_cons (exec_init s hf), runCommands_cons (exec_update_ok _ u data hready.1 hready.2 hu),
    runCommands_cons ht, runCommands]

/-- Settles O37: what the push stored at index `sp` is what the pop reads there. -/
theorem popReturnsThePushedEntry : Obligations.PopReturnsThePushedEntry := by
  unfold Obligations.PopReturnsThePushedEntry
  intro c s hs
  have hsp : (msPush c s).sp.toNat = s.sp.toNat + 1 := sp_succ_toNat _ (Nat.le_of_lt hs)
  have htop := msPush_getElem?_top c hs
  have hpop := msPop_fst (msPush c s) (sp_ne_zero_of_toNat_eq_succ hsp) (by omega)
  rw [hsp, Nat.add_sub_cancel, htop] at hpop
  refine ⟨hsp, htop, fun i => msPush_getElem?_of_ne c s, Option.some.inj hpop, ?_⟩
  have hback : (msPush c s).sp - 1 = s.sp := BitVec.add_sub_cancel _ _
  rw [msPop, hback]
  rfl

/-- Settles O38: `parentCv_eq_compress`, and the two halves of the message block. -/
theorem parentCompressionOperands : Obligations.ParentCompressionOperands := by
  unfold Obligations.ParentCompressionOperands
  intro left right root
  refine ⟨left ++ right, fun i hi => ⟨Vector.getElem_append_left hi, ?_⟩, parentCv_eq_compress left right root⟩
  rw [Vector.getElem_append_right (by omega) (by omega)]
  simp

/-- Settles O40: `msFold_push`, and `msFold_merge` with the entry that `msPop_fst` reads. -/
theorem foldMergesTheTopEntryFirst : Obligations.FoldMergesTheTopEntryFirst := by
  unfold Obligations.FoldMergesTheTopEntryFirst
  intro c t s
  refine ⟨fun hodd => msFold_push c t s (.inl hodd), fun heven hpos h64 => ?_⟩
  have h0 : s.sp ≠ 0 := fun e => by simp [e] at hpos
  refine ⟨(msPop s).1, _, (msPop_fst s h0 h64).symm, rfl, ?_⟩
  rw [msFold_merge c t s heven h0, parentCv_eq_compress]
  rfl

end

/-! ### What `FINAL` issues and latches (44_finalizer.md R170 to R181) -/

namespace Sys2Proof.Machine

/-- At the start of the input the registers are those of a fresh context, but for the stale bytes (R35, R191). -/
theorem ContextInv.fresh_of_total {s : State} (h : ContextInv s) (h0 : total s = 0) :
    s.bufLen = 0 ∧ s.blkIdx = 0 ∧ s.chunkCtr = 0 ∧ s.cv = iv ∧ s.sp = 0 := by
  rw [total] at h0
  have hlen : s.bufLen = 0 := BitVec.eq_of_toNat_eq (show s.bufLen.toNat = 0 by omega)
  have hblk : s.blkIdx = 0 := BitVec.eq_of_toNat_eq (show s.blkIdx.toNat = 0 by omega)
  have hctr : s.chunkCtr = 0 := BitVec.eq_of_toNat_eq (show s.chunkCtr.toNat = 0 by omega)
  exact ⟨hlen, hblk, hctr, h.cv_start hblk, h.sp_eq_zero_iff.mpr hctr⟩

/-- Past the start the registers are what the position says (R35, R180). -/
theorem ContextInv.registers_eq_ofNat {s : State} (h : ContextInv s) (hpos : 0 < total s) :
    s.bufLen = BitVec.ofNat 7 ((total s - 1) % 64 + 1) ∧ s.blkIdx = BitVec.ofNat 5 ((total s - 1) / 64 % 16) ∧
    s.chunkCtr = BitVec.ofNat 64 ((total s - 1) / 1024) := by
  obtain ⟨hlen, hblk, hctr⟩ := h.registers_of_total hpos
  exact ⟨by rw [← hlen]; simp, by rw [← hblk]; simp, by rw [← hctr]; simp⟩

/-- `FINALIZE` latches the unwind of the valid entries over the last block's compression (R174 to R176). -/
theorem finalize_digest {s : State} (h64 : s.sp.toNat ≤ 64) : (finalize s).digest =
    leStore8 (unwindValue (entries s) (coreAnswer (finalRequest (padded s)))) := by
  rw [finalize_eq]
  dsimp only
  rw [msUnwind_fst _ (by exact h64)]
  rfl

/-- `FINALIZE` issues the last block's request, and then one parent per entry, the last with `ROOT` (R159, R172 to R175). -/
theorem finalize_issued (s : State) : ∃ parents,
    (finalize s).coreLog = s.coreLog ++ finalRequest (padded s) :: parents ∧ parents.length = s.sp.toNat ∧
    ∀ i p, parents[i]? = some p → p.d = if i + 1 = s.sp.toNat then 0xC else 0x4 := by
  obtain ⟨parents, hstate, hlen, hflags⟩ :=
    msUnwind_issued (coreAnswer (finalRequest (padded s))) (issue (finalRequest (padded s)) (padded s))
  refine ⟨parents, ?_, hlen, hflags⟩
  rw [finalize_eq, hstate]
  simp [padded]

/-- The last block's compression is no parent (R173). -/
theorem hasParent_finalRequest (s : State) : hasParent (finalRequest s) = false := by
  simp only [hasParent, finalRequest, finalFlags_table]
  split <;> split <;> rfl

theorem hasParent_of_parent_flags {p : Request} {last : Prop} [Decidable last] (h : p.d = if last then 0xC else 0x4) :
    hasParent p = true := by
  rw [hasParent, h]
  split <;> rfl

end Sys2Proof.Machine

/-! ### The obligations on the finaliser -/

section

open Sys2Proof Sys2Proof.Machine

/-- Settles O23: the unwind computes `unwindValue` of the valid entries (`finalize_digest`), over the request that
`finalRequest` reads off the padded state; the frame is `exec_final_frame`. -/
theorem finalPadsCompressesAndUnwinds : Obligations.FinalPadsCompressesAndUnwinds := by
  unfold Obligations.FinalPadsCompressesAndUnwinds
  intro s hf hst h64
  obtain ⟨t, ht, htst, htf, hdiag, hcmd, hreset, hin, hout, hdigest, hresp, -⟩ := exec_final_frame s hf hst
  refine ⟨t, padBuffer s.buf s.bufLen.toNat, _, ht, fun i hi => ?_, rfl, ?_, hdigest ▸ hresp, htst, htf, hdiag, hcmd,
    hreset, hin, hout⟩
  · rw [Vector.getElem?_eq_getElem hi, Vector.getElem?_eq_getElem hi, padBuffer_getElem _ _ _ hi]
    split <;> rfl
  · rw [hdigest, finalize_digest h64, coreAnswer, finalRequest, finalFlags_table]
    rfl

/-- Settles O48: a context at position 0 has absorbed the empty input whatever its stale bytes (`absorbed_of_fresh`), so
`FINAL` responds the digest of the empty tree, evaluated by the kernel. -/
theorem emptyInputDigest : Obligations.EmptyInputDigest := by
  unfold Obligations.EmptyInputDigest
  intro s hs hr h0
  have hc := hs.context hr
  obtain ⟨hlen, hblk, hctr, hcv, hsp⟩ := hc.fresh_of_total h0
  have hdigest : (finalize s).digest = treeDigest [] :=
    finalize_digest_eq_treeDigest (absorbed_of_fresh [] hlen hblk hctr hcv hsp) h0 (hc.chunkCount_eq h0)
  obtain ⟨t, ht, -, -, -, -, -, -, -, -, hresp, -⟩ := exec_final_frame s hr.1 hr.2
  refine ⟨t, ht, ?_⟩
  rw [hresp, hdigest]
  congr 1
  decide +kernel

/-- Settles O49: the registers at each position are `ContextInv.registers_eq_ofNat`'s, and `finalize_issued` gives one request
for an empty stack and two for one entry. -/
theorem singleChunkBoundary : Obligations.SingleChunkBoundary := by
  unfold Obligations.SingleChunkBoundary
  intro s hs hr
  have hc := hs.context hr
  obtain ⟨t, ht, -, -, -, -, -, -, -, -, -, hlog⟩ := exec_final_frame s hr.1 hr.2
  obtain ⟨parents, hissued, hlength, hflags⟩ := finalize_issued s
  refine ⟨t, ht, fun htotal => ?_, fun htotal => ?_⟩
  · obtain ⟨hlen, hblk, hctr⟩ : s.bufLen = 64 ∧ s.blkIdx = 15 ∧ s.chunkCtr = 0 := by
      simpa [htotal] using hc.registers_eq_ofNat (by omega)
    have hsp : s.sp = 0 := hc.sp_eq_zero_iff.mpr hctr
    obtain rfl : parents = [] := List.length_eq_zero_iff.mp (by rw [hlength, hsp]; rfl)
    refine ⟨hlen, hblk, hctr, hsp, finalRequest (padded s), hlog.trans hissued, hctr, hlen, ?_⟩
    rw [finalRequest, padded, hblk, hsp]
    rfl
  · obtain ⟨hlen, hblk, hctr⟩ : s.bufLen = 1 ∧ s.blkIdx = 0 ∧ s.chunkCtr = 1 := by
      simpa [htotal] using hc.registers_eq_ofNat (by omega)
    have hsp : s.sp = 1 := BitVec.eq_of_toNat_eq (by rw [hc.sp_eq, hctr]; rfl)
    obtain ⟨p, rfl⟩ := List.length_eq_one_iff.mp (hlength.trans (by rw [hsp]; rfl))
    refine ⟨hlen, hblk, hctr, hsp, finalRequest (padded s), p, hlog.trans hissued, hctr, hlen, ?_, ?_⟩
    · rw [finalRequest, padded, hblk, hsp]
      rfl
    · rw [hflags 0 p rfl, hsp]
      rfl

/-- Settles O50: `finalize_issued`, with the height of the stack from R40 (`ContextInv.sp_eq`). -/
theorem finalIssuesOneRequestPerEntry : Obligations.FinalIssuesOneRequestPerEntry := by
  unfold Obligations.FinalIssuesOneRequestPerEntry
  intro s hs hr
  have hc := hs.context hr
  obtain ⟨t, ht, -, -, -, -, -, -, -, -, -, hlog⟩ := exec_final_frame s hr.1 hr.2
  obtain ⟨parents, hissued, hlength, hflags⟩ := finalize_issued s
  refine ⟨t, finalRequest (padded s), parents, ht, hlog.trans hissued, hasParent_finalRequest _, fun p hp => ?_, hlength,
    hc.sp_eq, hlength ▸ Nat.succ_le_succ hc.chunk.sp_le⟩
  obtain ⟨i, hi⟩ := List.getElem?_of_mem hp
  exact hasParent_of_parent_flags (hflags i p hi)

end

/-! ### A faulted block and the command stream (45_host_commands.md R196, 60_exceptions.md R218) -/

namespace Sys2Proof.Machine

theorem stepCommand_reserved {s : State} {x : Byte} {rest : List Byte} (h : decodeStream s.cmdIn = .reserved x rest) :
    stepCommand s = reservedByte x { s with cmdIn := rest } := by
  rw [stepCommand, h]

theorem reservedByte_shut (x : Byte) {s : State} (hf : s.fault ≠ 0) : reservedByte x s = .next s := gate_shut s _ hf

/-- The command stream is not a request port (R70, R83). -/
theorem decodeStream_ne_illegalRequest (bytes : List Byte) (r : Request) : decodeStream bytes ≠ .illegalRequest r := by
  cases bytes with
  | nil => nofun
  | cons x bytes =>
    by_cases hx : rsvdField x = 0
    · rcases eq_selector_of_rsvdField_eq_zero hx with rfl | rfl | rfl | rfl
      · nofun
      · rcases Nat.lt_or_ge bytes.length (8 + leNat (bytes.take 8)) with hshort | hwhole
        · rw [decodeStream_update, decodeUpdate_incomplete hshort]
          nofun
        · rw [decodeStream_update, decodeUpdate_whole hwhole]
          nofun
      · nofun
      · nofun
    · rw [decodeStream_reserved hx]
      nofun

end Sys2Proof.Machine

/-! ### A hash as a run of commands (45_host_commands.md R197) -/

namespace Sys2Proof.Machine

theorem runCommands_append {is : List Instr} {s u : State} (h : runCommands is s = .next u) (js : List Instr) :
    runCommands (is ++ js) s = runCommands js u := by
  induction is generalizing s with
  | nil => cases h; rfl
  | cons i is ih =>
    rw [runCommands] at h
    cases hi : exec i s with
    | next v =>
      rw [hi] at h
      rw [List.cons_append, runCommands_cons hi, ih h]
    | fault f => rw [hi] at h; cases h
    | refused r => rw [hi] at h; cases h

/-- `UPDATE`s of pieces of any lengths end where ingest of the whole ends (R140). With no piece no `UPDATE` is issued, which
leaves `st` alone: then the block must be in `ACCUM` already. -/
theorem runCommands_updates {ds : List (List Byte)} {s w : State} (hr : Ready s) (hc : ContextInv s)
    (hst : ds = [] → s.st = .accum) (hw : ingest ds.flatten { s with st := .accum } = .ok w) :
    runCommands (ds.map .update) s = .next w := by
  induction ds generalizing s with
  | nil => exact runCommands_noPieces hc.bufLen_le (hst rfl) hw
  | cons d ds ih =>
    have hl : { s with st := .accum }.bufLen.toNat ≤ 64 := hc.bufLen_le
    obtain ⟨u, hu⟩ := ingest_front_ok hl hw
    obtain ⟨hust, hur, huc⟩ := ingest_accum hr hc hu
    rw [List.flatten_cons, ingest_append hl hu huc.bufLen_le] at hw
    rw [List.map_cons, runCommands_cons (exec_update_ok s u d hr.1 hr.2 hu)]
    exact ih hur huc (fun _ => hust) (hust ▸ hw)

/-- A context that has absorbed an input whole: what `FINAL` needs to respond the input's digest. -/
structure AbsorbedWhole (data : List Byte) (s : State) : Prop where
  ready : Ready s
  context : ContextInv s
  absorbed : Absorbed data s
  total_eq : total s = data.length

theorem absorbedWhole_nil {s : State} (hr : Ready s) (hc : ContextInv s) (h0 : total s = 0) : AbsorbedWhole [] s := by
  obtain ⟨hlen, hblk, hctr, hcv, hsp⟩ := hc.fresh_of_total h0
  exact ⟨hr, hc, absorbed_of_fresh [] hlen hblk hctr hcv hsp, h0⟩

theorem ingest_absorbedWhole {data : List Byte} {s u : State} (hr : Ready s) (hc : ContextInv s) (h0 : total s = 0)
    (hu : ingest data { s with st := .accum } = .ok u) : AbsorbedWhole data u := by
  obtain ⟨hlen, hblk, hctr, hcv, hsp⟩ := hc.fresh_of_total h0
  obtain ⟨-, hur, huc⟩ := ingest_accum hr hc hu
  have htotal := ingest_total hc hu
  rw [h0, Nat.zero_add] at htotal
  rw [ingest_eq_absorbAll hc.byte.bufLen_le] at hu
  have hstart : Absorbed data { s with st := .accum } := absorbed_of_fresh data hlen hblk hctr hcv hsp
  have hrest : data.drop (total { s with st := .accum }) = data := congrArg data.drop h0
  exact ⟨hur, huc, absorbAll_absorbed hstart hrest hu, htotal⟩

/-- `FINAL` after the whole input responds the digest of R160's tree (R193). -/
theorem AbsorbedWhole.final_responds {data : List Byte} {s : State} (h : AbsorbedWhole data s) :
    ∃ t, exec .final s = .next t ∧ t.respOut = s.respOut ++ (treeDigest data).toList := by
  obtain ⟨t, ht, -, -, -, -, -, -, -, -, hresp, -⟩ := exec_final_frame s h.ready.1 h.ready.2
  rw [finalize_digest_eq_treeDigest h.absorbed h.total_eq (h.context.chunkCount_eq h.total_eq)] at hresp
  exact ⟨t, ht, hresp⟩

/-- From a fresh context `UPDATE`s of any pieces within the bound absorb their concatenation, and respond nothing. -/
theorem runCommands_updates_absorb (ds : List (List Byte)) {s : State} (hr : Ready s) (hc : ContextInv s) (h0 : total s = 0)
    (hbound : ds.flatten.length ≤ 2 ^ 74) :
    ∃ u, runCommands (ds.map .update) s = .next u ∧ AbsorbedWhole ds.flatten u ∧ u.respOut = s.respOut := by
  by_cases hnil : ds = []
  · subst hnil
    exact ⟨s, rfl, absorbedWhole_nil hr hc h0, rfl⟩
  · obtain ⟨u, hu⟩ := ingest_completes hc (data := ds.flatten) (by omega)
    refine ⟨u, runCommands_updates hr hc (fun h => absurd h hnil) hu, ingest_absorbedWhole hr hc h0 hu, ?_⟩
    rw [ingest_frame _ _ u (.inl hu)]

/-- The `UPDATE`s and `FINAL` of a hash, from any fresh context (R197). -/
theorem runCommands_hash (ds : List (List Byte)) {s : State} (hr : Ready s) (hc : ContextInv s) (h0 : total s = 0)
    (hbound : ds.flatten.length ≤ 2 ^ 74) : ∃ t, runCommands (ds.map .update ++ [.final]) s = .next t ∧
      t.respOut = s.respOut ++ (treeDigest ds.flatten).toList := by
  obtain ⟨u, hu, hwhole, hresp⟩ := runCommands_updates_absorb ds hr hc h0 hbound
  obtain ⟨t, ht, hout⟩ := hwhole.final_responds
  refine ⟨t, ?_, hresp ▸ hout⟩
  rw [runCommands_append hu, runCommands_cons ht, runCommands]

end Sys2Proof.Machine

/-! ### The obligations on the host commands -/

section

open Sys2Proof Sys2Proof.Machine

/-- Settles O45: the one response is the digest of R160's tree over the concatenation, which `runCommands_hash` gives for every
cutting of it; after `INIT` the context is fresh. -/
theorem digestIgnoresTheSplit : Obligations.DigestIgnoresTheSplit := by
  unfold Obligations.DigestIgnoresTheSplit
  intro data hbound
  refine ⟨(treeDigest data).toList, Vector.length_toList, fun ds hds => ?_⟩
  subst hds
  refine ⟨fun s hf => ?_, fun s hs hr h0 => runCommands_hash ds hr (hs.context hr) h0 hbound⟩
  have hready : Ready (freshContext s) := ⟨hf, nofun⟩
  obtain ⟨t, ht, hresp⟩ := runCommands_hash ds hready (contextInv_of_fresh rfl rfl rfl rfl rfl) rfl hbound
  exact ⟨t, by rw [List.cons_append, runCommands_cons (exec_init s hf), ht], hresp⟩

/-- Settles O22: the four rules of `RDDIG` under the gate, and after `FINAL` the register it reads is the one `FINAL` latched
and responded (`exec_final_frame`). -/
theorem rddigRespondsTheLatchedDigest : Obligations.RddigRespondsTheLatchedDigest := by
  unfold Obligations.RddigRespondsTheLatchedDigest
  intro s
  refine ⟨fun hf => exec_shut s .rddig _ hf rfl, fun hf hst => exec_rddig_early s hf hst, fun hf hst => ?_, fun hr => ?_⟩
  · exact ⟨respondDigest s, exec_rddig s hf hst, rfl, exec_rddig (respondDigest s) hf hst⟩
  · obtain ⟨t, ht, htst, htf, -, -, -, -, -, hdigest, hresp, -⟩ := exec_final_frame s hr.1 hr.2
    refine ⟨t, respondDigest t, t.digest.toList, ht, exec_rddig t htf htst, Vector.length_toList, hdigest ▸ hresp, ?_⟩
    rw [respondDigest_respOut, hresp, hdigest]

/-- Settles O26: the gate drops a command (`exec_shut`) and a reserved byte (`reservedByte_shut`) after the decoder has moved
the stream past it; an incomplete command stays where it is. -/
theorem faultGateDropsEveryCommand : Obligations.FaultGateDropsEveryCommand := by
  unfold Obligations.FaultGateDropsEveryCommand
  intro s hf
  refine ⟨fun i bytes hi => exec_shut s i bytes hf hi, fun hreset hin => ?_⟩
  rw [step_stream hreset hin]
  cases hd : decodeStream s.cmdIn with
  | instr i later =>
    obtain ⟨-, bytes, hi, -⟩ := decodeStream_eq_instr hd
    refine ⟨later, ?_, fun j rest h => by cases h; rfl, nofun⟩
    rw [stepCommand_instr hd]
    exact exec_shut { s with cmdIn := later } i bytes hf hi
  | reserved x later =>
    refine ⟨later, ?_, nofun, fun y rest h => by cases h; rfl⟩
    rw [stepCommand_reserved hd]
    exact reservedByte_shut x (s := { s with cmdIn := later }) hf
  | incomplete => exact ⟨s.cmdIn, stepCommand_incomplete hd, nofun, nofun⟩
  | illegalRequest r => exact absurd hd (decodeStream_ne_illegalRequest _ r)

end

/-! ### A reserved first byte with no fault latched (30_encoding.md R74, 60_exceptions.md R216) -/

namespace Sys2Proof

theorem rsvdField_ne_zero_of_div {x : Byte} (h : x.toNat / 4 ≠ 0) : rsvdField x ≠ 0 := by
  intro hx
  rw [← rsvdField_toNat, hx] at h
  exact h rfl

namespace Machine

theorem reservedByte_open (x : Byte) {s : State} (hf : s.fault = 0) :
    reservedByte x s = .next (takeFault (.reservedCmd x) s) := gate_open s _ hf

end Machine
end Sys2Proof

/-! ### The obligations on the faults 1, 2, 3 and 5 (60_exceptions.md R211 to R216)

Each fault is taken by `takeFault`, which writes `fault` and `diag` alone (R219). -/

section

open Sys2Proof Sys2Proof.Machine

/-- Settles O7: the decoder moves the stream past the byte, and past the gate `reservedByte` takes its fault. -/
theorem reservedByteRaisesFaultFive : Obligations.ReservedByteRaisesFaultFive := by
  unfold Obligations.ReservedByteRaisesFaultFive
  intro s x rest hr hin hcmd hx hf
  have hd : decodeStream s.cmdIn = .reserved x rest := by
    rw [hcmd, decodeStream_reserved (rsvdField_ne_zero_of_div hx)]
  rw [step_stream hr hin, stepCommand_reserved hd]
  exact reservedByte_open x (s := { s with cmdIn := rest }) hf

/-- Settles O19: the decoder moves the stream past the whole `UPDATE`, and in `FINAL` the command takes its fault. -/
theorem updateAfterFinalRaisesFaultOne : Obligations.UpdateAfterFinalRaisesFaultOne := by
  unfold Obligations.UpdateAfterFinalRaisesFaultOne
  intro s data rest hr hin hd hf hst
  rw [step_stream hr hin, stepCommand_instr hd]
  exact exec_update_final { s with cmdIn := rest } data hf hst

/-- Settles O20: past the gate, in `FINAL`, the command takes its fault (`exec_final_final`). -/
theorem finalAfterFinalRaisesFaultTwo : Obligations.FinalAfterFinalRaisesFaultTwo := by
  unfold Obligations.FinalAfterFinalRaisesFaultTwo
  intro s hf hst
  exact exec_final_final s hf hst

/-- Settles O21: past the gate, outside `FINAL`, the command takes its fault (`exec_rddig_early`). -/
theorem readBeforeFinalRaisesFaultThree : Obligations.ReadBeforeFinalRaisesFaultThree := by
  unfold Obligations.ReadBeforeFinalRaisesFaultThree
  intro s hf hst
  exact exec_rddig_early s hf hst

end
